-- ==== Sys2Proof/Word.lean ====
section
/-! DEFINITION. The word types of TQD4 and the narrowing of 00_scope.md R8 and R9. -/

namespace Sys2Proof

/-- One 32-bit register or block element (10_state.md R20, 20_memory.md R55). -/
abbrev Word := BitVec 32

/-- One 64-bit accumulator (10_state.md R31). -/
abbrev Acc64 := BitVec 64

/-- `low_32(v)`: the least non-negative residue of v modulo 2^32 (R9). -/
abbrev low32 (v : Int) : Word := BitVec.ofInt 32 v

/-- `low_64(v)`: the least non-negative residue of v modulo 2^64 (R9). -/
abbrev low64 (v : Int) : Acc64 := BitVec.ofInt 64 v

end Sys2Proof
end

