-- ==== Sys2Proof/Syntax.lean ====
section
/-! DEFINITION. The commands of TQD4 and the raw fields of a command word. -/

namespace Sys2Proof

/-- The ten commands (30_encoding.md R71). Only the four accumulating commands carry ACC (R72). -/
inductive Instr where
  /-- R150 -/
  | nop
  /-- R131 -/
  | resid (acc : Bool)
  /-- R101 -/
  | fdct
  /-- R103 -/
  | had
  /-- R113 -/
  | quant
  /-- R116 -/
  | dequant
  /-- R133 -/
  | sumabs (acc : Bool)
  /-- R135 -/
  | satd (acc : Bool)
  /-- R137 -/
  | satddct (acc : Bool)
  /-- R152 -/
  | clracc
deriving DecidableEq, Repr

/-- The three fields of the one command format, CMD (R70). -/
structure CmdFields where
  /-- bits 3:0 -/
  opc : BitVec 4
  /-- bit 4 -/
  acc : Bool
  /-- bits 31:5 -/
  rsv : BitVec 27
deriving DecidableEq, Repr

end Sys2Proof
end

