-- ==== Sys2Proof/WellFormed.lean ====
section
/-! DEFINITION. Which command fields are legal. Every term of `Instr` is well-formed by its type (ACC stands only where
R72 allows it), so the checks are on the raw fields of R70. -/

namespace Sys2Proof

/-- RSV must be 0 (30_encoding.md R73). -/
def CmdFields.rsvOk (f : CmdFields) : Bool := f.rsv == 0

/-- OPC 0xA to 0xF is reserved (R74). -/
def CmdFields.opcOk (f : CmdFields) : Bool := f.opc.toNat < 0xA

/-- ACC must be 0 except on RESID, SUMABS, SATD and SATDDCT (R72). -/
def CmdFields.accOk (f : CmdFields) : Bool :=
  !f.acc || f.opc == 0x1 || f.opc == 0x6 || f.opc == 0x7 || f.opc == 0x8

/-- The fields of a legal word (R76). -/
def CmdFields.wellFormed (f : CmdFields) : Bool := f.rsvOk && f.opcOk && f.accOk

end Sys2Proof
end

