-- ==== Sys2Proof/Decode.lean ====
section
/-! DEFINITION. The decoder of 30_encoding.md R76, total on every 32-bit word, and the encoder. -/

namespace Sys2Proof

/-- Why a word is Illegal; all three lead to ERRCODE ILLEGAL_CMD (60_exceptions.md R161). -/
inductive IllegalReason where
  /-- R73 -/
  | rsvNonzero
  /-- R74 -/
  | opcReserved
  /-- R72 -/
  | accNotAllowed
deriving DecidableEq, Repr

/-- What `Decode` answers: `Cmd(opc, acc)` or `Illegal` (R76). -/
inductive Decoded where
  | cmd (i : Instr)
  | illegal (r : IllegalReason)
deriving DecidableEq, Repr

/-- The decoded command, if the word is legal. -/
def Decoded.instr? : Decoded → Option Instr
  | .cmd i => some i
  | .illegal _ => none

/-- The fields of a word (R70). -/
def fieldsOfWord (w : Word) : CmdFields where
  opc := w.extractLsb' 0 4
  acc := w.getLsbD 4
  rsv := w.extractLsb' 5 27

/-- `Decode(w)` (R76), with the opcode map of R71. -/
def decode (w : Word) : Decoded :=
  let f := fieldsOfWord w
  if f.rsv ≠ 0 then .illegal .rsvNonzero
  else if f.acc = true ∧ f.opc.toNat < 0xA ∧ f.opc.toNat ∉ [0x1, 0x6, 0x7, 0x8] then .illegal .accNotAllowed
  else
    match f.opc.toNat with
    | 0x0 => .cmd .nop
    | 0x1 => .cmd (.resid f.acc)
    | 0x2 => .cmd .fdct
    | 0x3 => .cmd .had
    | 0x4 => .cmd .quant
    | 0x5 => .cmd .dequant
    | 0x6 => .cmd (.sumabs f.acc)
    | 0x7 => .cmd (.satd f.acc)
    | 0x8 => .cmd (.satddct f.acc)
    | 0x9 => .cmd .clracc
    | _   => .illegal .opcReserved

/-- The OPC number of a command (R71). -/
def Instr.opcode : Instr → Nat
  | .nop => 0x0
  | .resid _ => 0x1
  | .fdct => 0x2
  | .had => 0x3
  | .quant => 0x4
  | .dequant => 0x5
  | .sumabs _ => 0x6
  | .satd _ => 0x7
  | .satddct _ => 0x8
  | .clracc => 0x9

/-- The ACC bit of a command; 0 on the commands that do not accumulate (R72). -/
def Instr.accBit : Instr → Bool
  | .resid acc => acc
  | .sumabs acc => acc
  | .satd acc => acc
  | .satddct acc => acc
  | .nop => false
  | .fdct => false
  | .had => false
  | .quant => false
  | .dequant => false
  | .clracc => false

/-- Whether the command uses QP (R71). -/
def Instr.usesQp : Instr → Bool
  | .quant => true
  | .dequant => true
  | .satddct _ => true
  | .nop => false
  | .resid _ => false
  | .fdct => false
  | .had => false
  | .sumabs _ => false
  | .satd _ => false
  | .clracc => false

/-- The fields of a command's word (R70). -/
def Instr.fields (i : Instr) : CmdFields where
  opc := BitVec.ofNat 4 i.opcode
  acc := i.accBit
  rsv := 0

/-- The word with these fields (R70). -/
def wordOfFields (f : CmdFields) : Word := f.rsv ++ BitVec.ofBool f.acc ++ f.opc

/-- The command's word (R77). -/
def encode (i : Instr) : Word := wordOfFields i.fields

/-- The word of an opcode-table row: one 32-bit word, the bits above `nbits` zero. -/
def tableWord (nbits w : Nat) : Word := BitVec.ofNat 32 (w % 2 ^ nbits)

/-- What the decoder reads from an opcode-table row's bits. -/
def decodeTableWord (nbits w : Nat) : Option Instr := (decode (tableWord nbits w)).instr?

end Sys2Proof
end

