-- ==== Sys2Proof/Config.lean ====
section
/-! DEFINITION. What is fixed for one TQD4 machine: the constants the spec gives, the parameters of 00_scope.md R7
with their defaults, the OPEN parameters, and the source of unspecified values. -/

namespace Sys2Proof

/-- The position class of an element (41_quant.md R110): class 0, 1 and 2 in that order. -/
inductive PosClass where
  | bothEven
  | bothOdd
  | mixed
deriving DecidableEq, Repr

/-- One row of the table MFT or DQT: a value for each position class (R110, R111). -/
structure ClassRow where
  bothEven : Nat
  bothOdd  : Nat
  mixed    : Nat
deriving DecidableEq, Repr

/-- The parameters that the spec gives a default for (93_implementation_defined.md U19, U20; log entry 6). -/
structure Params where
  /-- The quantizer multipliers, row qp % 6 (R110). -/
  mft  : Vector ClassRow 6
  /-- The dequantizer scales, row qp % 6 (R111). -/
  dqt  : Vector ClassRow 6
  /-- The rounding offset QOFF(qp), for qp in 0..51 (R112). -/
  qoff : Vector Nat 52
deriving DecidableEq, Repr

/-- The one constraint the spec puts on a parameter: `QOFF(qp) < 2^(15 + qp / 6)` (R112). -/
abbrev Params.wf (p : Params) : Prop :=
  ∀ qp : Fin 52, p.qoff[qp] < 2 ^ (15 + qp.val / 6)

/-- The default tables of R110, R111 and R112. -/
def Params.default : Params where
  mft := #v[⟨13107, 5243, 8066⟩, ⟨11916, 4660, 7490⟩, ⟨10082, 4194, 6554⟩,
            ⟨9362, 3647, 5825⟩, ⟨8192, 3355, 5243⟩, ⟨7282, 2893, 4559⟩]
  dqt := #v[⟨10, 16, 13⟩, ⟨11, 18, 14⟩, ⟨13, 20, 16⟩, ⟨14, 23, 18⟩, ⟨16, 25, 20⟩, ⟨18, 29, 23⟩]
  qoff := Vector.ofFn fun qp => 2 ^ (15 + qp.val / 6) / 3

/-- The forward transform matrix C (40_transform.md R100). -/
def Config.matC : Vector (Vector Int 4) 4 :=
  #v[#v[1,  1,  1,  1],
     #v[2,  1, -1, -2],
     #v[1, -1, -1,  1],
     #v[1, -2,  2, -1]]

/-- The Hadamard matrix H (40_transform.md R102). -/
def Config.matH : Vector (Vector Int 4) 4 :=
  #v[#v[1,  1,  1,  1],
     #v[1,  1, -1, -1],
     #v[1, -1, -1,  1],
     #v[1, -1,  1, -1]]

/-- What ID reads as, at all times (10_state.md R28). -/
def Config.idValue : Word := 0x54514401#32

/-- The largest legal quantization parameter (10_state.md R27). -/
def Config.qpMax : Nat := 51

/-- OPEN (R7): which 256-byte page of the host's address space the window is (log entry 7). -/
opaque Config.tqdPage : Nat

/-- `TQD_BASE`, a multiple of 256 (20_memory.md R50). -/
def Config.tqdBase : Nat := 256 * Config.tqdPage

/-- OPEN (R7): whether a bad access also answers with a bus error (60_exceptions.md R163; log entry 7). -/
opaque Config.busErrSignal : Bool

/-- FREE VALUE: the n-th unspecified value, under no law (10_state.md R33, 70_reset_and_hazards.md R191; log entry 4). -/
opaque Config.draw : Nat → BitVec 64

/-- FREE VALUE: the rounding offset at a QP the spec gives none for; no accepted command uses it (log entry 8). -/
opaque Config.qoffOutOfRange : Nat → Nat

end Sys2Proof
end

