-- ==== Sys2Proof/Machine/State.lean ====
section
/-! DEFINITION. The state of TQD4 (10_state.md), its state after reset, and the reasons a step can stop. -/

namespace Sys2Proof.Machine

/-- One element of a block: unwritten since reset, or holding a word (70_reset_and_hazards.md R191; log entry 3). -/
inductive Elem where
  | unwritten
  | written (v : Word)
deriving DecidableEq, Repr

/-- A block register: 16 elements in raster order (10_state.md R20, 00_scope.md R11). -/
abbrev Block := Vector Elem 16

/-- The values STATUS.ERRCODE takes; codes 5 to 15 are never produced (60_exceptions.md R160). -/
inductive ErrCode where
  | noError
  | illegalCmd
  | qpRange
  | busy
  | access
deriving DecidableEq, Repr

/-- One thing that happens to the block. A host access carries its offset in the window (20_memory.md R50, R54). -/
inductive Event where
  /-- The engine's turn: it completes the command in flight, if there is one (10_state.md R32). -/
  | engine
  /-- A host read of `size` bytes. -/
  | read (off : Fin 256) (size : Nat)
  /-- A host write of `size` bytes; `v` is its data when size = 4, and is never looked at otherwise (log entry 14). -/
  | write (off : Fin 256) (size : Nat) (v : Word)
  /-- The reset input is asserted (70_reset_and_hazards.md R190). -/
  | resetAssert
  /-- The reset input is released (R190). -/
  | resetRelease
deriving DecidableEq, Repr

/-- The bus's answer to one host access; `busError` is the error response of R163 (log entry 12). -/
inductive Response where
  | readData (v : Word) (busError : Bool)
  | writeDone (busError : Bool)
deriving DecidableEq, Repr

/-- All the state of the machine. BUSY is `pend ≠ none` (R23); ID, CMD and IRQ hold no state (R28, R29, R170). -/
structure State where
  /-- block A (R20) -/
  a       : Block
  /-- block B (R20) -/
  b       : Block
  /-- block W (R20) -/
  w       : Block
  /-- STATUS.DONE (R24) -/
  done    : Bool
  /-- STATUS.ERR (R25) -/
  err     : Bool
  /-- STATUS.ERRCODE (R25) -/
  errcode : ErrCode
  /-- CTRL.IE (R26) -/
  ie      : Bool
  /-- QP (R27) -/
  qp      : BitVec 6
  /-- NZCNT[4:0] (R30) -/
  nzcnt   : BitVec 5
  /-- accumulator SAD (R31) -/
  sad     : Acc64
  /-- accumulator SSE (R31) -/
  sse     : Acc64
  /-- accumulator SATD (R31) -/
  satd    : Acc64
  /-- PEND: the accepted command word in flight (R32) -/
  pend    : Option Word
  /-- whether the reset input is asserted (R190; log entry 10) -/
  inReset : Bool
  /-- the machine's parameters, which no step changes (R7; log entry 6) -/
  params  : Params
  /-- MODEL'S OWN: how many unspecified values have been drawn (log entry 4) -/
  draws   : Nat
  /-- MODEL'S OWN: what happens next, oldest first (log entry 1) -/
  inputs  : List Event
  /-- MODEL'S OWN: what the host has been answered, oldest first (log entry 12) -/
  outputs : List Response
deriving DecidableEq, Repr

/-- A block no element of which has been written. -/
def Block.unwritten : Block := Vector.replicate 16 .unwritten

/-- The machine right after reset (70_reset_and_hazards.md R192). -/
def State.reset : State where
  a       := Block.unwritten
  b       := Block.unwritten
  w       := Block.unwritten
  done    := false
  err     := false
  errcode := .noError
  ie      := false
  qp      := 28
  nzcnt   := 0
  sad     := 0
  sse     := 0
  satd    := 0
  pend    := none
  inReset := false
  params  := Params.default
  draws   := 0
  inputs  := []
  outputs := []

/-- Why the machine stops with a fault. -/
inductive Fault where
  /-- Raised by the engine's step when PEND holds a word that is not legal. No rule puts one there (60_exceptions.md R161,
  R165), and no run reaches such a state (log entry 9). Safe. -/
  | pendIllegal
deriving DecidableEq, Repr

/-- Why the model gives no meaning. -/
inductive Refusal where
  /-- Raised by `exec` alone, for an instruction that has no meaning yet. Safe. -/
  | notModelled (mnemonic : String)
  /-- Raised by a host access while reset is asserted: "accesses during reset are outside this spec" (R190, U15). Safe. -/
  | accessDuringReset
deriving DecidableEq, Repr

end Sys2Proof.Machine
end

