-- ==== Sys2Proof/Machine/Flags.lean ====
section
/-! DEFINITION. STATUS, CTRL and IRQ: how the flags are read, recorded and cleared. -/

namespace Sys2Proof.Machine

/-- STATUS.BUSY: a command is in flight (10_state.md R23). -/
def State.busy (s : State) : Bool := s.pend.isSome

/-- The number of an error code (60_exceptions.md R160). -/
def ErrCode.code : ErrCode → BitVec 4
  | .noError => 0
  | .illegalCmd => 1
  | .qpRange => 2
  | .busy => 3
  | .access => 4

/-- STATUS as one word: BUSY 0, DONE 1, ERR 2, ERRCODE 7:4, the rest 0 (10_state.md R22). -/
def statusWord (s : State) : Word :=
  0#24 ++ s.errcode.code ++ 0#1 ++ BitVec.ofBool s.err ++ BitVec.ofBool s.done ++ BitVec.ofBool s.busy

/-- CTRL as one word (R26). -/
def ctrlWord (s : State) : Word := 0#31 ++ BitVec.ofBool s.ie

/-- The interrupt line, at every moment (60_exceptions.md R170). -/
def irq (s : State) : Bool := s.ie && (s.done || s.err)

/-- `record(k)`: the first error is kept (R25, R161). -/
def record (k : ErrCode) (s : State) : State :=
  if s.err then s else { s with err := true, errcode := k }

/-- A host write of v to STATUS: bits 1 and 2 clear by writing one (R22). -/
def statusWrite (v : Word) (s : State) : State :=
  { s with
    done := if v.getLsbD 1 then false else s.done
    err := if v.getLsbD 2 then false else s.err
    errcode := if v.getLsbD 2 then .noError else s.errcode }

end Sys2Proof.Machine
end

