-- ==== Sys2Proof/Machine/Operands.lean ====
section
/-! DEFINITION. The operands of a command: blocks read as integers and written as words, the matrix product, the tables,
the accumulators, and the free values that stand for unspecified results. -/

namespace Sys2Proof.Machine

/-- The sum over a row or column of a block. -/
def sum4 (f : Fin 4 → Int) : Int := f 0 + f 1 + f 2 + f 3

/-- The sum over the 16 elements of a block, i in 0..15. -/
def sum16 (f : Fin 16 → Int) : Int :=
  f 0 + f 1 + f 2 + f 3 + f 4 + f 5 + f 6 + f 7 + f 8 + f 9 + f 10 + f 11 + f 12 + f 13 + f 14 + f 15

/-- The row of element i (00_scope.md R11). -/
def rowOf (i : Fin 16) : Fin 4 := ⟨i.val / 4, by omega⟩

/-- The column of element i (R11). -/
def colOf (i : Fin 16) : Fin 4 := ⟨i.val % 4, by omega⟩

/-- The element at row r and column c (R11). -/
def elemAt (r c : Fin 4) : Fin 16 := ⟨4 * r.val + c.val, by omega⟩

/-- `Mat(M, X)`, that is M · X · Mᵀ, exact (R12). -/
def mat (m : Vector (Vector Int 4) 4) (x : Fin 16 → Int) : Fin 16 → Int := fun i =>
  sum4 fun r => sum4 fun c => m[rowOf i][r] * x (elemAt r c) * m[colOf i][c]

/-- The word an element holds, if it has been written. -/
def Elem.word? : Elem → Option Word
  | .unwritten => none
  | .written v => some v

/-- Whether every element has been written since reset (70_reset_and_hazards.md R191). -/
def Block.allWritten (b : Block) : Bool := b.toList.all fun e => e.word?.isSome

theorem Block.isSome_of_allWritten {b : Block} (h : b.allWritten = true) (i : Fin 16) : b[i].word?.isSome = true :=
  List.all_eq_true.mp h b[i] (by simp)

/-- The 16 elements as signed integers `sext_32(X[i])` (10_state.md R20), if every one has been written. -/
def readBlock (b : Block) : Option (Fin 16 → Int) :=
  if h : b.allWritten = true then some fun i => (b[i].word?.get (Block.isSome_of_allWritten h i)).toInt else none

/-- The block that holds these 16 words, every element written. -/
def blockOf (f : Fin 16 → Word) : Block := Vector.ofFn fun i => .written (f i)

/-- What an accumulating command writes for the exact sum S (42_distortion.md R130). -/
def accumulate (acc : Bool) (old : Acc64) (sum : Int) : Acc64 :=
  low64 ((if acc then (old.toNat : Int) else 0) + sum)

/-- `pc(i)` (41_quant.md R110). -/
def posClass (i : Fin 16) : PosClass :=
  if (rowOf i).val % 2 = 0 ∧ (colOf i).val % 2 = 0 then .bothEven
  else if (rowOf i).val % 2 = 1 ∧ (colOf i).val % 2 = 1 then .bothOdd
  else .mixed

/-- A table row's value for a position class (R110, R111). -/
def classValue (row : ClassRow) : PosClass → Nat
  | .bothEven => row.bothEven
  | .bothOdd => row.bothOdd
  | .mixed => row.mixed

/-- `qp % 6`, the table row (R110). -/
def qpRem (qp : Nat) : Fin 6 := ⟨qp % 6, Nat.mod_lt _ (by decide)⟩

/-- `MF(qp % 6, i)` (R110). -/
def mf (p : Params) (qp : Nat) (i : Fin 16) : Nat := classValue p.mft[qpRem qp] (posClass i)

/-- `DQ(qp % 6, i)` (R111). -/
def dq (p : Params) (qp : Nat) (i : Fin 16) : Nat := classValue p.dqt[qpRem qp] (posClass i)

/-- `QOFF(qp)` (R112), for the QP values 0..51 that an accepted command has; beyond them a free value (log entry 8). -/
def qoff (p : Params) (qp : Nat) : Nat := if h : qp < 52 then p.qoff[qp] else Config.qoffOutOfRange qp

/-- `qbits` (R113). -/
def qbits (qp : Nat) : Nat := 15 + qp / 6

/-- One quantizer level: `(|c| * MF + QOFF) >> qbits`, exact (R113). -/
def level (p : Params) (qp : Nat) (i : Fin 16) (c : Int) : Nat :=
  (c.natAbs * mf p qp i + qoff p qp) / 2 ^ qbits qp

/-- One dequantized element: `(l * DQ) << (qp / 6)`, exact (R116). -/
def rescale (p : Params) (qp : Nat) (i : Fin 16) (l : Int) : Int :=
  l * dq p qp i * 2 ^ (qp / 6)

/-- How many of the 16 levels are nonzero (R113). -/
def nonzeroCount (l : Fin 16 → Nat) : Nat := (List.finRange 16).countP fun i => l i != 0

/-- The n-th unspecified 32-bit value (R33, R191). -/
def drawWord (n : Nat) : Word := (Config.draw n).setWidth 32

/-- The largest level a table allows: `2^(31 - qbits) * MF` at qbits = 15 (R114 (c)); 858980352 for the default. -/
def levelMax (p : Params) : Nat :=
  2 ^ 16 * p.mft.foldl (fun m r => max m (max r.bothEven (max r.bothOdd r.mixed))) 0

/-- A block of unspecified elements, from the n-th draw on (R191, U3). -/
def drawnBlock (n : Nat) : Block := blockOf fun i => drawWord (n + i)

/-- A block of unspecified levels, each in its range (R191, U3; log entry 5). -/
def drawnLevels (p : Params) (n : Nat) : Block :=
  blockOf fun i => BitVec.ofNat 32 ((Config.draw (n + i)).toNat % (levelMax p + 1))

/-- An unspecified NZCNT in 0..16 (U3). -/
def drawnCount (n : Nat) : BitVec 5 := BitVec.ofNat 5 ((Config.draw n).toNat % 17)

/-- How many draws one command on unwritten operands uses: 16 elements and two more registers (log entry 4). -/
def drawsPerCommand : Nat := 18

end Sys2Proof.Machine
end

