-- ==== Sys2Proof/Machine/Ops.lean ====
section
/-! DEFINITION. The shared operations: rejecting and launching a command, its completion, the reset input, and the answer
to the host. TQD4 has no trap entry (60_exceptions.md R166): `record` (Flags.lean) is all that an error does. -/

namespace Sys2Proof.Machine

/-- `Launch(v)` (60_exceptions.md R165). -/
def launch (v : Word) (s : State) : State := { s with pend := some v, done := false }

/-- A CMD write rejected with ILLEGAL_CMD or QP_RANGE (R161). -/
def reject (k : ErrCode) (s : State) : State := { record k s with done := true }

/-- `CommandWrite(v)` (R161), with the priority of R162. -/
def commandWrite (v : Word) (s : State) : State :=
  if s.busy then record .busy s
  else
    match decode v with
    | .illegal _ => reject .illegalCmd s
    | .cmd i => if i.usesQp = true ∧ Config.qpMax < s.qp.toNat then reject .qpRange s else launch v s

/-- Parts 2 and 3 of the engine's step: the command is no longer in flight, and DONE is set (10_state.md R32). -/
def complete (s : State) : State := { s with pend := none, done := true }

/-- The command on unwritten operands has used its draws (log entry 4). -/
def spendDraws (s : State) : State := { s with draws := s.draws + drawsPerCommand }

/-- The command in flight, decoded. -/
def commandInFlight (s : State) : Option Decoded := s.pend.map decode

/-- The reset input is asserted: the command in flight is abandoned (70_reset_and_hazards.md R190; log entry 10). -/
def resetAssert (s : State) : State := { s with pend := none, inReset := true }

/-- The reset input is released: every register takes its reset value (R190, R192; log entry 10). -/
def resetRelease (s : State) : State :=
  if s.inReset then
    { State.reset with params := s.params, draws := s.draws, inputs := s.inputs, outputs := s.outputs }
  else s

/-- The bus answers the host (log entry 12). -/
def respond (r : Response) (s : State) : State := { s with outputs := s.outputs ++ [r] }

end Sys2Proof.Machine
end

