-- ==== Sys2Proof/Machine/Control.lean ====
section
/-! DEFINITION. The control commands NOP and CLRACC (43_control.md). -/

namespace Sys2Proof.Machine

/-- NOP: only the STATUS changes that every command makes (R150). -/
def execNop (s : State) : Host.Outcome State Fault Refusal := .next (complete s)

/-- CLRACC (R152). -/
def execClracc (s : State) : Host.Outcome State Fault Refusal :=
  .next (complete { s with sad := 0, sse := 0, satd := 0, nzcnt := 0 })

end Sys2Proof.Machine
end

