-- ==== Sys2Proof/Machine/Quant.lean ====
section
/-! DEFINITION. The quantizer commands QUANT and DEQUANT (41_quant.md). -/

namespace Sys2Proof.Machine

/-- The 16 levels of the signed elements x (R113). -/
def levels (p : Params) (qp : Nat) (x : Fin 16 → Int) : Fin 16 → Nat := fun i => level p qp i (x i)

/-- The words QUANT writes (R113). -/
def levelWords (l : Fin 16 → Nat) : Fin 16 → Word := fun i => BitVec.ofNat 32 (l i)

/-- The words DEQUANT writes (R116). -/
def dequantWords (p : Params) (qp : Nat) (x : Fin 16 → Int) : Fin 16 → Word := fun i => low32 (rescale p qp i (x i))

/-- QUANT (R113); on an unwritten operand, R191. -/
def execQuant (s : State) : Host.Outcome State Fault Refusal :=
  match readBlock s.w with
  | some x =>
    let l := levels s.params s.qp.toNat x
    .next (complete { s with w := blockOf (levelWords l), nzcnt := BitVec.ofNat 5 (nonzeroCount l) })
  | none =>
    .next (complete (spendDraws { s with w := drawnLevels s.params s.draws, nzcnt := drawnCount (s.draws + 16) }))

/-- DEQUANT (R116); on an unwritten operand, R191. -/
def execDequant (s : State) : Host.Outcome State Fault Refusal :=
  match readBlock s.w with
  | some x => .next (complete { s with w := blockOf (dequantWords s.params s.qp.toNat x) })
  | none => .next (complete (spendDraws { s with w := drawnBlock s.draws }))

end Sys2Proof.Machine
end

