-- ==== Sys2Proof/Machine/Transform.lean ====
section
/-! DEFINITION. The transform commands FDCT and HAD (40_transform.md). -/

namespace Sys2Proof.Machine

/-- The words FDCT writes for the signed elements x (R101). -/
def fdctWords (x : Fin 16 → Int) : Fin 16 → Word := fun i => low32 (mat Config.matC x i)

/-- The words HAD writes for the signed elements x: the exact product, halved toward zero (R103). -/
def hadWords (x : Fin 16 → Int) : Fin 16 → Word := fun i => low32 ((mat Config.matH x i).tdiv 2)

/-- The forward butterfly on one row or column (R100). -/
def fwdButterfly (x : Fin 4 → Int) : Fin 4 → Int := fun k =>
  let s03 := x 0 + x 3
  let d03 := x 0 - x 3
  let s12 := x 1 + x 2
  let d12 := x 1 - x 2
  match k with
  | 0 => s03 + s12
  | 1 => d03 * 2 + d12
  | 2 => s03 - s12
  | 3 => d03 - d12 * 2

/-- The Hadamard butterfly on one row or column (R102). -/
def hadButterfly (x : Fin 4 → Int) : Fin 4 → Int := fun k =>
  let s03 := x 0 + x 3
  let d03 := x 0 - x 3
  let s12 := x 1 + x 2
  let d12 := x 1 - x 2
  match k with
  | 0 => s03 + s12
  | 1 => d03 + d12
  | 2 => s03 - s12
  | 3 => d03 - d12

/-- A butterfly on each row of a block and then on each column (R12). -/
def rowsThenColumns (f : (Fin 4 → Int) → Fin 4 → Int) (x : Fin 16 → Int) : Fin 16 → Int := fun i =>
  f (fun r => f (fun c => x (elemAt r c)) (colOf i)) (rowOf i)

/-- FDCT (R101); on an unwritten operand, R191. -/
def execFdct (s : State) : Host.Outcome State Fault Refusal :=
  match readBlock s.w with
  | some x => .next (complete { s with w := blockOf (fdctWords x) })
  | none => .next (complete (spendDraws { s with w := drawnBlock s.draws }))

/-- HAD (R103); on an unwritten operand, R191. -/
def execHad (s : State) : Host.Outcome State Fault Refusal :=
  match readBlock s.w with
  | some x => .next (complete { s with w := blockOf (hadWords x) })
  | none => .next (complete (spendDraws { s with w := drawnBlock s.draws }))

end Sys2Proof.Machine
end

