-- ==== Sys2Proof/Machine/Distortion.lean ====
section
/-! DEFINITION. The distortion commands RESID, SUMABS, SATD and SATDDCT (42_distortion.md). -/

namespace Sys2Proof.Machine

/-- The sum of the absolute values of 16 integers, exact (R131, R133). -/
def sumAbs (x : Fin 16 → Int) : Int := sum16 fun i => ((x i).natAbs : Int)

/-- The sum of the squares of 16 integers, exact (R131). -/
def sumSquares (x : Fin 16 → Int) : Int := sum16 fun i => x i * x i

/-- RESID (R131): the sums come from the exact difference; on an unwritten operand, R191. -/
def execResid (acc : Bool) (s : State) : Host.Outcome State Fault Refusal :=
  match readBlock s.a, readBlock s.b with
  | some a, some b =>
    let d := fun i => a i - b i
    .next (complete { s with
      w := blockOf fun i => low32 (d i)
      sad := accumulate acc s.sad (sumAbs d)
      sse := accumulate acc s.sse (sumSquares d) })
  | _, _ =>
    .next (complete (spendDraws { s with
      w := drawnBlock s.draws, sad := Config.draw (s.draws + 16), sse := Config.draw (s.draws + 17) }))

/-- SUMABS (R133); on an unwritten operand, R191. -/
def execSumabs (acc : Bool) (s : State) : Host.Outcome State Fault Refusal :=
  match readBlock s.w with
  | some x => .next (complete { s with satd := accumulate acc s.satd (sumAbs x) })
  | none => .next (complete (spendDraws { s with satd := Config.draw (s.draws + 16) }))

/-- SATD (R135): the sum is over the narrowed values just written; on an unwritten operand, R191. -/
def execSatd (acc : Bool) (s : State) : Host.Outcome State Fault Refusal :=
  match readBlock s.w with
  | some x =>
    .next (complete { s with
      w := blockOf (hadWords x)
      satd := accumulate acc s.satd (sumAbs fun i => (hadWords x i).toInt) })
  | none =>
    .next (complete (spendDraws { s with w := drawnBlock s.draws, satd := Config.draw (s.draws + 16) }))

/-- SATDDCT (R137): the state change of FDCT, then QUANT, then SUMABS, narrowed to 32 bits between the steps
(92_eei_decisions.md D13; log entry 16); on an unwritten operand, R191. -/
def execSatddct (acc : Bool) (s : State) : Host.Outcome State Fault Refusal :=
  match readBlock s.w with
  | some x =>
    let l := levels s.params s.qp.toNat fun i => (fdctWords x i).toInt
    .next (complete { s with
      w := blockOf (levelWords l)
      nzcnt := BitVec.ofNat 5 (nonzeroCount l)
      satd := accumulate acc s.satd (sumAbs fun i => (levelWords l i).toInt) })
  | none =>
    .next (complete (spendDraws { s with
      w := drawnLevels s.params s.draws, nzcnt := drawnCount (s.draws + 16), satd := Config.draw (s.draws + 17) }))

end Sys2Proof.Machine
end

