-- ==== Sys2Proof/Machine/Dispatch.lean ====
section
/-! DEFINITION. One arm per command: the engine's completion step of each (10_state.md R32). -/

namespace Sys2Proof.Machine

def exec (i : Instr) (s : State) : Host.Outcome State Fault Refusal :=
  match i with
  | .nop => Sys2Proof.Machine.execNop s
  | .resid acc => Sys2Proof.Machine.execResid acc s
  | .fdct => Sys2Proof.Machine.execFdct s
  | .had => Sys2Proof.Machine.execHad s
  | .quant => Sys2Proof.Machine.execQuant s
  | .dequant => Sys2Proof.Machine.execDequant s
  | .sumabs acc => Sys2Proof.Machine.execSumabs acc s
  | .satd acc => Sys2Proof.Machine.execSatd acc s
  | .satddct acc => Sys2Proof.Machine.execSatddct acc s
  | .clracc => Sys2Proof.Machine.execClracc s

end Sys2Proof.Machine
end

