-- ==== Sys2Proof/Machine/Window.lean ====
section
/-! DEFINITION. The register window: the map of 20_memory.md R52 and the two access functions of R54. -/

namespace Sys2Proof.Machine

/-- The registers of the window, by their names in R52. -/
inductive Reg where
  | id | cmd | status | ctrl | qp | nzcnt
  | sadLo | sadHi | sseLo | sseHi | satdLo | satdHi
  | a (i : Fin 16)
  | b (i : Fin 16)
  | w (i : Fin 16)
deriving DecidableEq, Repr

/-- The window offset of a byte address, if the address lies in the window (R50). -/
def windowOffset (addr : Nat) : Option (Fin 256) :=
  if h : Config.tqdBase ≤ addr ∧ addr - Config.tqdBase < 256 then some ⟨addr - Config.tqdBase, h.2⟩ else none

/-- `MemRead(addr, n)` as TQD4 sees it: nothing at all outside its window (R13, R50). -/
def memRead (addr size : Nat) : Option Event := (windowOffset addr).map fun off => .read off size

/-- `MemWrite(addr, n, v)` as TQD4 sees it (R13, R50). -/
def memWrite (addr size : Nat) (v : Word) : Option Event := (windowOffset addr).map fun off => .write off size v

/-- The register at an offset (R52); none at a misaligned or reserved offset (R51, R53). The block bases are multiples of
64, so element i = (off - base) / 4 is off / 4 modulo 16. -/
def regAt (off : Fin 256) : Option Reg :=
  if off.val % 4 ≠ 0 then none
  else if 0xC0 ≤ off.val then some (.w (Fin.ofNat 16 (off.val / 4)))
  else if 0x80 ≤ off.val then some (.b (Fin.ofNat 16 (off.val / 4)))
  else if 0x40 ≤ off.val then some (.a (Fin.ofNat 16 (off.val / 4)))
  else
    match off.val with
    | 0x00 => some .id
    | 0x04 => some .cmd
    | 0x08 => some .status
    | 0x0C => some .ctrl
    | 0x10 => some .qp
    | 0x14 => some .nzcnt
    | 0x18 => some .sadLo
    | 0x1C => some .sadHi
    | 0x20 => some .sseLo
    | 0x24 => some .sseHi
    | 0x28 => some .satdLo
    | 0x2C => some .satdHi
    | _ => none

/-- The register an access reaches; none for a bad access (`bad(size, off)`, R54). -/
def target (off : Fin 256) (size : Nat) : Option Reg := if size = 4 then regAt off else none

/-- A value that may be read only while no command is in flight (10_state.md R33). -/
def unlessBusy (s : State) (v : Option Word) : Option Word := if s.busy then none else v

/-- What a read of a register returns (R52, R54); none where it is unspecified (R33, R191). -/
def regValue (r : Reg) (s : State) : Option Word :=
  match r with
  | .id => some Config.idValue
  | .cmd => some 0
  | .status => some (statusWord s)
  | .ctrl => some (ctrlWord s)
  | .qp => some (s.qp.setWidth 32)
  | .nzcnt => unlessBusy s (some (s.nzcnt.setWidth 32))
  | .sadLo => unlessBusy s (some (s.sad.extractLsb' 0 32))
  | .sadHi => unlessBusy s (some (s.sad.extractLsb' 32 32))
  | .sseLo => unlessBusy s (some (s.sse.extractLsb' 0 32))
  | .sseHi => unlessBusy s (some (s.sse.extractLsb' 32 32))
  | .satdLo => unlessBusy s (some (s.satd.extractLsb' 0 32))
  | .satdHi => unlessBusy s (some (s.satd.extractLsb' 32 32))
  | .a i => unlessBusy s s.a[i].word?
  | .b i => unlessBusy s s.b[i].word?
  | .w i => unlessBusy s s.w[i].word?

/-- A read returns its value, or a fresh draw where the value is unspecified (R33, R191). -/
def readReg (r : Reg) (s : State) : State :=
  match regValue r s with
  | some v => respond (.readData v false) s
  | none => respond (.readData (drawWord s.draws) false) { s with draws := s.draws + 1 }

/-- `HostRead(off, size)` (R54, R163). -/
def hostRead (off : Fin 256) (size : Nat) (s : State) : State :=
  match target off size with
  | none => respond (.readData 0 Config.busErrSignal) (record .access s)
  | some r => readReg r s

/-- `raise AccessError()` on a write (R163). -/
def accessError (s : State) : State := respond (.writeDone Config.busErrSignal) (record .access s)

/-- A write that takes effect, `t` being the state after it. -/
def acceptWrite (t : State) : State := respond (.writeDone false) t

/-- A write that a command in flight drops (`raise BusyWrite()`, R163). -/
def unlessInFlight (s t : State) : State := acceptWrite (if s.busy then record .busy s else t)

/-- A 32-bit write of v to a register (R54). -/
def writeReg (r : Reg) (v : Word) (s : State) : State :=
  match r with
  | .id => accessError s
  | .nzcnt => accessError s
  | .sadLo => accessError s
  | .sadHi => accessError s
  | .sseLo => accessError s
  | .sseHi => accessError s
  | .satdLo => accessError s
  | .satdHi => accessError s
  | .cmd => acceptWrite (commandWrite v s)
  | .status => acceptWrite (statusWrite v s)
  | .ctrl => acceptWrite { s with ie := v.getLsbD 0 }
  | .qp => unlessInFlight s { s with qp := v.extractLsb' 0 6 }
  | .a i => unlessInFlight s { s with a := s.a.set i (.written v) }
  | .b i => unlessInFlight s { s with b := s.b.set i (.written v) }
  | .w i => unlessInFlight s { s with w := s.w.set i (.written v) }

/-- `HostWrite(off, size, v)` (R54, R163). -/
def hostWrite (off : Fin 256) (size : Nat) (v : Word) (s : State) : State :=
  match target off size with
  | none => accessError s
  | some r => writeReg r v s

end Sys2Proof.Machine
end

