-- ==== Sys2Proof/Machine/Step.lean ====
section
/-! DEFINITION. One step of the machine: the next event of the input list, or the engine's turn when the list is empty
(20_memory.md R60, 70_reset_and_hazards.md R195; log entries 1 and 2). -/

namespace Sys2Proof.Machine

/-- The engine's turn: it runs the command in flight, and does nothing if there is none (10_state.md R32). -/
def engineTurn (s : State) : Host.Outcome State Fault Refusal :=
  match commandInFlight s with
  | none => .next s
  | some (.cmd i) => exec i s
  | some (.illegal _) => .fault .pendIllegal

/-- A host access, `t` being the state after it; none is answered while reset is asserted (R190). -/
def hostAccess (s t : State) : Host.Outcome State Fault Refusal :=
  if s.inReset then .refused .accessDuringReset else .next t

/-- One step. -/
def step (s : State) : Host.Outcome State Fault Refusal :=
  match s.inputs with
  | [] => engineTurn s
  | .engine :: rest => engineTurn { s with inputs := rest }
  | .read off size :: rest => hostAccess s (hostRead off size { s with inputs := rest })
  | .write off size v :: rest => hostAccess s (hostWrite off size v { s with inputs := rest })
  | .resetAssert :: rest => .next (resetAssert { s with inputs := rest })
  | .resetRelease :: rest => .next (resetRelease { s with inputs := rest })

/-- s with this command word in flight and the engine's turn next (log entry 11). -/
def State.withFetchWord (s : State) (nbits w : Nat) : State :=
  { s with pend := some (tableWord nbits w), inputs := .engine :: s.inputs }

end Sys2Proof.Machine
end

