-- ==== Sys2Proof/Safety.lean ====
section
/-! DEFINITION. What every state of a run meets, what a safe step is, and what a CMD write does, in the terms claims use. -/

namespace Sys2Proof.Machine

/-- The invariant of the machine; State.reset meets it, and every step keeps it. -/
structure State.Inv (s : State) : Prop where
  /-- A command in flight is legal, and QP is in range if it uses QP (60_exceptions.md R161). -/
  pend_accepted : ∀ w, s.pend = some w → ∃ i, decode w = .cmd i ∧ (i.usesQp = true → s.qp.toNat ≤ Config.qpMax)
  /-- DONE is 0 while a command is in flight (10_state.md R24, R165). -/
  busy_not_done : s.busy = true → s.done = false
  /-- ERRCODE is 0 exactly when ERR is 0 (R25). -/
  err_iff_code : s.err = true ↔ s.errcode ≠ .noError
  /-- NZCNT is a count of 0..16 (R30). -/
  nzcnt_le : s.nzcnt.toNat ≤ 16
  /-- No command is in flight while reset is asserted (R190). -/
  reset_idle : s.inReset = true → s.pend = none
  /-- The rounding offset meets its constraint (41_quant.md R112). -/
  params_wf : s.params.wf

/-- Whether the next event is a host access. -/
def State.accessNext (s : State) : Bool :=
  match s.inputs with
  | .read _ _ :: _ => true
  | .write _ _ _ :: _ => true
  | _ => false

/-- The "Errors" line that each command rule has, for the words with this OPC: a CMD write of one is rejected with BUSY while
a command is in flight, else with ILLEGAL_CMD if it does not decode, else with QP_RANGE if the command uses QP and QP is
above 51; each records its code unless an error is recorded already (10_state.md R25). Otherwise the command is launched
(60_exceptions.md R161, R165). -/
def CommandWriteOutcome (opc : Nat) : Prop :=
  ∀ (s : State) (v : Word) (rest : List Event), s.inReset = false → v.toNat % 2 ^ 4 = opc →
    s.inputs = .write 0x04 4 v :: rest →
    let rejected := fun (k : ErrCode) (done : Bool) =>
      Host.Outcome.next (φ := Fault) (ρ := Refusal) { s with
        done := done, err := true, errcode := if s.err then s.errcode else k
        inputs := rest, outputs := s.outputs ++ [.writeDone false] }
    (s.pend ≠ none → step s = rejected .busy s.done) ∧
    (s.pend = none → (∀ i, decode v ≠ .cmd i) → step s = rejected .illegalCmd true) ∧
    ∀ i, s.pend = none → decode v = .cmd i →
      (opc ∈ [0x4, 0x5, 0x8] ∧ 51 < s.qp.toNat → step s = rejected .qpRange true) ∧
      (¬(opc ∈ [0x4, 0x5, 0x8] ∧ 51 < s.qp.toNat) → step s = .next { s with
        pend := some v, done := false, inputs := rest, outputs := s.outputs ++ [.writeDone false] })

end Sys2Proof.Machine
end

