-- ==== Sys2Proof/Certificates/Slice0/Obligations.lean ====
section
/-! DEFINITION. The statements about TQD4, for the provers. -/

open Sys2Proof Sys2Proof.Machine

/-! ## Encoding -/

/-- R77: the 14 words, each with its command, and no other legal word. -/
def Obligations.FourteenWordsAreLegal : Prop :=
  decode 0x00000000#32 = .cmd .nop ∧
  decode 0x00000001#32 = .cmd (.resid false) ∧
  decode 0x00000011#32 = .cmd (.resid true) ∧
  decode 0x00000002#32 = .cmd .fdct ∧
  decode 0x00000003#32 = .cmd .had ∧
  decode 0x00000004#32 = .cmd .quant ∧
  decode 0x00000005#32 = .cmd .dequant ∧
  decode 0x00000006#32 = .cmd (.sumabs false) ∧
  decode 0x00000016#32 = .cmd (.sumabs true) ∧
  decode 0x00000007#32 = .cmd (.satd false) ∧
  decode 0x00000017#32 = .cmd (.satd true) ∧
  decode 0x00000008#32 = .cmd (.satddct false) ∧
  decode 0x00000018#32 = .cmd (.satddct true) ∧
  decode 0x00000009#32 = .cmd .clracc ∧
  ∀ w : Word,
    w ∉ [0x00#32, 0x01#32, 0x11#32, 0x02#32, 0x03#32, 0x04#32, 0x05#32, 0x06#32, 0x16#32, 0x07#32, 0x17#32, 0x08#32,
         0x18#32, 0x09#32] →
    ∃ r, decode w = .illegal r

/-- R73, R74 and R76: when a word is Illegal, and that otherwise the command has the word's OPC and ACC. -/
def Obligations.DecodeChecksRsvOpcAndAcc : Prop :=
  ∀ w : Word,
    ((∃ r, decode w = .illegal r) ↔
      (w.toNat / 2 ^ 5 ≠ 0 ∨ 0xA ≤ w.toNat % 2 ^ 4 ∨
        (w.toNat / 2 ^ 4 % 2 = 1 ∧ w.toNat % 2 ^ 4 ∉ [0x1, 0x6, 0x7, 0x8]))) ∧
    (∀ i, decode w = .cmd i → i.opcode = w.toNat % 2 ^ 4 ∧ i.accBit = decide (w.toNat / 2 ^ 4 % 2 = 1))

/-- Decode and encode agree in both directions: each legal word is one command's, and each command has one word. -/
def Obligations.DecodeAndEncodeAgree : Prop :=
  (∀ i : Instr, decode (encode i) = .cmd i) ∧ ∀ (w : Word) (i : Instr), decode w = .cmd i → encode i = w

/-- A few words written out from the opcode table decode to their commands. -/
def Obligations.TableWordsDecode : Prop :=
  decodeTableWord 32 0b00000000000000000000000000000010 = some .fdct ∧
  decodeTableWord 32 0b00000000000000000000000000000100 = some .quant ∧
  decodeTableWord 32 0b00000000000000000000000000010001 = some (.resid true) ∧
  decodeTableWord 32 0b00000000000000000000000000001001 = some .clracc ∧
  decodeTableWord 32 0b00000000000000000000000000010010 = none

/-! ## The step, and what every command does -/

/-- The engine's turn runs the command in flight: with an empty input list, or when its turn is next. -/
def Obligations.EngineTurnRunsTheCommandInFlight : Prop :=
  ∀ (s : State) (w : Word) (i : Instr), s.pend = some w → decode w = .cmd i →
    (s.inputs = [] → step s = exec i s) ∧
    (∀ rest, s.inputs = .engine :: rest → step s = exec i { s with inputs := rest })

/-- With a command's word placed by `withFetchWord`, the very next step runs that command. -/
def Obligations.PlacedWordRunsNext : Prop :=
  ∀ (s : State) (i : Instr),
    step (s.withFetchWord 32 (encode i).toNat) = exec i { s with pend := some (encode i) }

/-- R32, R34 and R35, the written state: every command completes, clears PEND, sets DONE, and leaves what it does not
write as it was. -/
def Obligations.CommandsWriteOnlyTheirListedState : Prop :=
  ∀ (i : Instr) (s : State), ∃ t, exec i s = .next t ∧
    t.pend = none ∧ t.done = true ∧
    t.a = s.a ∧ t.b = s.b ∧ t.qp = s.qp ∧ t.ie = s.ie ∧ t.err = s.err ∧ t.errcode = s.errcode ∧
    t.inReset = s.inReset ∧ t.params = s.params ∧ t.inputs = s.inputs ∧ t.outputs = s.outputs ∧
    (i.opcode ∈ [0x0, 0x6, 0x9] → t.w = s.w) ∧
    (i.opcode ∉ [0x1, 0x9] → t.sad = s.sad ∧ t.sse = s.sse) ∧
    (i.opcode ∉ [0x6, 0x7, 0x8, 0x9] → t.satd = s.satd) ∧
    (i.opcode ∉ [0x4, 0x8, 0x9] → t.nzcnt = s.nzcnt)

/-- R35, the read state: what a command writes depends only on the state the table lists as read (and on the machine's
parameters and the count of draws). -/
def Obligations.CommandsReadOnlyTheirListedState : Prop :=
  ∀ s t : State, s.params = t.params → s.draws = t.draws → ∀ s' t' : State,
    (∀ acc, s.a = t.a → s.b = t.b → (acc = true → s.sad = t.sad ∧ s.sse = t.sse) →
      exec (.resid acc) s = .next s' → exec (.resid acc) t = .next t' →
      s'.w = t'.w ∧ s'.sad = t'.sad ∧ s'.sse = t'.sse) ∧
    (s.w = t.w → exec .fdct s = .next s' → exec .fdct t = .next t' → s'.w = t'.w) ∧
    (s.w = t.w → exec .had s = .next s' → exec .had t = .next t' → s'.w = t'.w) ∧
    (s.w = t.w → s.qp = t.qp → exec .quant s = .next s' → exec .quant t = .next t' →
      s'.w = t'.w ∧ s'.nzcnt = t'.nzcnt) ∧
    (s.w = t.w → s.qp = t.qp → exec .dequant s = .next s' → exec .dequant t = .next t' → s'.w = t'.w) ∧
    (∀ acc, s.w = t.w → (acc = true → s.satd = t.satd) →
      exec (.sumabs acc) s = .next s' → exec (.sumabs acc) t = .next t' → s'.satd = t'.satd) ∧
    (∀ acc, s.w = t.w → (acc = true → s.satd = t.satd) →
      exec (.satd acc) s = .next s' → exec (.satd acc) t = .next t' → s'.w = t'.w ∧ s'.satd = t'.satd) ∧
    (∀ acc, s.w = t.w → s.qp = t.qp → (acc = true → s.satd = t.satd) →
      exec (.satddct acc) s = .next s' → exec (.satddct acc) t = .next t' →
      s'.w = t'.w ∧ s'.nzcnt = t'.nzcnt ∧ s'.satd = t'.satd) ∧
    (exec .clracc s = .next s' → exec .clracc t = .next t' →
      s'.sad = t'.sad ∧ s'.sse = t'.sse ∧ s'.satd = t'.satd ∧ s'.nzcnt = t'.nzcnt)

/-! ## The result of each command, on written operands

Each statement has the word or words of the command, what a CMD write of one does (`CommandWriteOutcome`), and its result. -/

/-- R150. -/
def Obligations.NopChangesOnlyStatus : Prop :=
  encode .nop = 0x00000000#32 ∧ CommandWriteOutcome 0x0 ∧
  ∀ s : State, exec .nop s = .next { s with pend := none, done := true }

/-- R152, with its corner case: after CLRACC an ACC = 1 command does what it does with ACC = 0. -/
def Obligations.ClraccClearsTheFourResults : Prop :=
  encode .clracc = 0x00000009#32 ∧ CommandWriteOutcome 0x9 ∧
  (∀ s : State, exec .clracc s = .next { s with sad := 0, sse := 0, satd := 0, nzcnt := 0, pend := none, done := true }) ∧
  ∀ s t : State, exec .clracc s = .next t →
    exec (.resid true) t = exec (.resid false) t ∧ exec (.sumabs true) t = exec (.sumabs false) t ∧
    exec (.satd true) t = exec (.satd false) t ∧ exec (.satddct true) t = exec (.satddct false) t

/-- R131: W gets the narrowed difference; SAD and SSE come from the exact one. -/
def Obligations.ResidWritesDifferenceSadAndSse : Prop :=
  encode (.resid false) = 0x00000001#32 ∧ encode (.resid true) = 0x00000011#32 ∧ CommandWriteOutcome 0x1 ∧
  ∀ (s : State) (acc : Bool) (x y : Fin 16 → Word),
    (∀ i : Fin 16, s.a[i] = .written (x i)) → (∀ i : Fin 16, s.b[i] = .written (y i)) →
    let d := fun i : Fin 16 => (x i).toInt - (y i).toInt
    exec (.resid acc) s = .next { s with
      w := Vector.ofFn fun i => .written (BitVec.ofInt 32 (d i))
      sad := BitVec.ofInt 64 ((if acc then (s.sad.toNat : Int) else 0) + sum16 fun i => ((d i).natAbs : Int))
      sse := BitVec.ofInt 64 ((if acc then (s.sse.toNat : Int) else 0) + sum16 fun i => d i * d i)
      pend := none
      done := true }

/-- R101: W gets `low_32` of C · X · Cᵀ. -/
def Obligations.FdctWritesTheForwardTransform : Prop :=
  encode .fdct = 0x00000002#32 ∧ CommandWriteOutcome 0x2 ∧
  ∀ (s : State) (x : Fin 16 → Word), (∀ i : Fin 16, s.w[i] = .written (x i)) →
    exec .fdct s = .next { s with
      w := Vector.ofFn fun i => .written (BitVec.ofInt 32 (mat Config.matC (fun j => (x j).toInt) i))
      pend := none
      done := true }

/-- R103: W gets `low_32` of H · X · Hᵀ halved toward zero. -/
def Obligations.HadWritesTheHalvedHadamard : Prop :=
  encode .had = 0x00000003#32 ∧ CommandWriteOutcome 0x3 ∧
  ∀ (s : State) (x : Fin 16 → Word), (∀ i : Fin 16, s.w[i] = .written (x i)) →
    exec .had s = .next { s with
      w := Vector.ofFn fun i => .written (BitVec.ofInt 32 ((mat Config.matH (fun j => (x j).toInt) i).tdiv 2))
      pend := none
      done := true }

/-- R113: W gets the levels, NZCNT how many are nonzero. -/
def Obligations.QuantWritesLevelsAndTheirCount : Prop :=
  encode .quant = 0x00000004#32 ∧ CommandWriteOutcome 0x4 ∧
  ∀ (s : State) (x : Fin 16 → Word) (hq : s.qp.toNat < 52), (∀ i : Fin 16, s.w[i] = .written (x i)) →
    let l := fun i : Fin 16 =>
      ((x i).toInt.natAbs * mf s.params s.qp.toNat i + s.params.qoff[s.qp.toNat]) / 2 ^ (15 + s.qp.toNat / 6)
    exec .quant s = .next { s with
      w := Vector.ofFn fun i => .written (BitVec.ofNat 32 (l i))
      nzcnt := BitVec.ofNat 5 ((List.finRange 16).filter fun i => l i ≠ 0).length
      pend := none
      done := true }

/-- R116: W gets the rescaled levels, signs kept. -/
def Obligations.DequantWritesRescaledLevels : Prop :=
  encode .dequant = 0x00000005#32 ∧ CommandWriteOutcome 0x5 ∧
  ∀ (s : State) (x : Fin 16 → Word), s.qp.toNat < 52 → (∀ i : Fin 16, s.w[i] = .written (x i)) →
    exec .dequant s = .next { s with
      w := Vector.ofFn fun i =>
        .written (BitVec.ofInt 32 ((x i).toInt * dq s.params s.qp.toNat i * 2 ^ (s.qp.toNat / 6)))
      pend := none
      done := true }

/-- R133: SATD gets the sum of the absolute values of W. -/
def Obligations.SumabsAddsAbsoluteValues : Prop :=
  encode (.sumabs false) = 0x00000006#32 ∧ encode (.sumabs true) = 0x00000016#32 ∧ CommandWriteOutcome 0x6 ∧
  ∀ (s : State) (acc : Bool) (x : Fin 16 → Word), (∀ i : Fin 16, s.w[i] = .written (x i)) →
    exec (.sumabs acc) s = .next { s with
      satd := BitVec.ofInt 64
        ((if acc then (s.satd.toNat : Int) else 0) + sum16 fun i => ((x i).toInt.natAbs : Int))
      pend := none
      done := true }

/-- R135: W gets the halved Hadamard coefficients, and SATD the sum of the narrowed values. -/
def Obligations.SatdSumsTheHalvedHadamard : Prop :=
  encode (.satd false) = 0x00000007#32 ∧ encode (.satd true) = 0x00000017#32 ∧ CommandWriteOutcome 0x7 ∧
  ∀ (s : State) (acc : Bool) (x : Fin 16 → Word), (∀ i : Fin 16, s.w[i] = .written (x i)) →
    let y := fun i : Fin 16 => BitVec.ofInt 32 ((mat Config.matH (fun j => (x j).toInt) i).tdiv 2)
    exec (.satd acc) s = .next { s with
      w := Vector.ofFn fun i => .written (y i)
      satd := BitVec.ofInt 64
        ((if acc then (s.satd.toNat : Int) else 0) + sum16 fun i => ((y i).toInt.natAbs : Int))
      pend := none
      done := true }

/-- R137: the narrowed forward transform is quantized, counted and summed. The sum is SUMABS of the levels as written to W
(92_eei_decisions.md D13; log entry 16); it is the sum of the levels themselves where each is below 2^31, as each is under
the default multipliers and every legal rounding offset. -/
def Obligations.SatddctTransformsQuantizesAndSums : Prop :=
  encode (.satddct false) = 0x00000008#32 ∧ encode (.satddct true) = 0x00000018#32 ∧ CommandWriteOutcome 0x8 ∧
  ∀ (s : State) (acc : Bool) (x : Fin 16 → Word) (hq : s.qp.toNat < 52), (∀ i : Fin 16, s.w[i] = .written (x i)) →
    let y := fun i : Fin 16 => BitVec.ofInt 32 (mat Config.matC (fun j => (x j).toInt) i)
    let l := fun i : Fin 16 =>
      ((y i).toInt.natAbs * mf s.params s.qp.toNat i + s.params.qoff[s.qp.toNat]) / 2 ^ (15 + s.qp.toNat / 6)
    let sum := sum16 fun i => ((BitVec.ofNat 32 (l i)).toInt.natAbs : Int)
    exec (.satddct acc) s = .next { s with
      w := Vector.ofFn fun i => .written (BitVec.ofNat 32 (l i))
      nzcnt := BitVec.ofNat 5 ((List.finRange 16).filter fun i => l i ≠ 0).length
      satd := BitVec.ofInt 64 ((if acc then (s.satd.toNat : Int) else 0) + sum)
      pend := none
      done := true } ∧
    ((∀ i, l i < 2 ^ 31) → sum = sum16 fun i => (l i : Int)) ∧
    (s.params.mft = Params.default.mft → s.params.wf → ∀ i, l i < 2 ^ 31)

/-- R130: with ACC = 1 each accumulator ends at its old value plus what ACC = 0 leaves, modulo 2^64. -/
def Obligations.AccAddsToTheOldAccumulator : Prop :=
  (∀ (s t u : State) (x y : Fin 16 → Word),
    (∀ i : Fin 16, s.a[i] = .written (x i)) → (∀ i : Fin 16, s.b[i] = .written (y i)) →
    exec (.resid false) s = .next t → exec (.resid true) s = .next u →
    u.sad = s.sad + t.sad ∧ u.sse = s.sse + t.sse ∧ u.w = t.w) ∧
  ∀ (s t u : State) (x : Fin 16 → Word), (∀ i : Fin 16, s.w[i] = .written (x i)) →
    (exec (.sumabs false) s = .next t → exec (.sumabs true) s = .next u → u.satd = s.satd + t.satd) ∧
    (exec (.satd false) s = .next t → exec (.satd true) s = .next u → u.satd = s.satd + t.satd ∧ u.w = t.w) ∧
    (exec (.satddct false) s = .next t → exec (.satddct true) s = .next u →
      u.satd = s.satd + t.satd ∧ u.w = t.w ∧ u.nzcnt = t.nzcnt)

/-- What a command leaves when an element it reads is unwritten: each register it writes holds an unspecified value
(the model's choice of free values: log entries 4 and 5). -/
def Obligations.UnwrittenOperandsGiveUnspecifiedResults : Prop :=
  ∀ s : State,
    let drawn : Block := Vector.ofFn fun i => .written ((Config.draw (s.draws + i)).setWidth 32)
    ((∃ i : Fin 16, s.a[i] = .unwritten ∨ s.b[i] = .unwritten) → ∀ acc,
      exec (.resid acc) s = .next { s with
        w := drawn, sad := Config.draw (s.draws + 16), sse := Config.draw (s.draws + 17)
        draws := s.draws + 18, pend := none, done := true }) ∧
    ((∃ i : Fin 16, s.w[i] = .unwritten) →
      (∀ i ∈ [Instr.fdct, .had, .dequant],
        exec i s = .next { s with w := drawn, draws := s.draws + 18, pend := none, done := true }) ∧
      (∀ acc, exec (.sumabs acc) s = .next { s with
        satd := Config.draw (s.draws + 16), draws := s.draws + 18, pend := none, done := true }) ∧
      (∀ acc, exec (.satd acc) s = .next { s with
        w := drawn, satd := Config.draw (s.draws + 16), draws := s.draws + 18, pend := none, done := true }))

/-- What QUANT and SATDDCT leave when an element of W is unwritten: each register they write holds an unspecified value,
the levels and NZCNT kept in their ranges (the model's choice of free values: log entries 4 and 5); under the default
multipliers the levels stay in [0, 858980352], and NZCNT stays in 0..16. -/
def Obligations.UnwrittenOperandLevelsStayInRange : Prop :=
  ∀ s : State, (∃ i : Fin 16, s.w[i] = .unwritten) →
    let levels : Block := Vector.ofFn fun i =>
      .written (BitVec.ofNat 32 ((Config.draw (s.draws + i)).toNat % (levelMax s.params + 1)))
    let count := BitVec.ofNat 5 ((Config.draw (s.draws + 16)).toNat % 17)
    exec .quant s = .next { s with
      w := levels, nzcnt := count, draws := s.draws + 18, pend := none, done := true } ∧
    (∀ acc, exec (.satddct acc) s = .next { s with
      w := levels, nzcnt := count, satd := Config.draw (s.draws + 17)
      draws := s.draws + 18, pend := none, done := true }) ∧
    count.toNat ≤ 16 ∧
    (s.params.mft = Params.default.mft →
      ∀ j : Fin 16, ∃ v : Word, levels[j] = .written v ∧ v.toNat ≤ 858980352)

/-! ## Properties of the arithmetic -/

/-- R12, R100 and R102: the two matrix products are the spec's butterflies on rows, then on columns. -/
def Obligations.MatrixProductsAreButterflies : Prop :=
  ∀ x : Fin 16 → Int,
    mat Config.matC x = rowsThenColumns fwdButterfly x ∧ mat Config.matH x = rowsThenColumns hadButterfly x

/-- R104 (a), (b) and (c): zero is fixed, a constant block leaves one coefficient, and FDCT is linear modulo 2^32. -/
def Obligations.TransformsOfZeroConstantAndSum : Prop :=
  (∀ (s : State) (k : Int), (∀ i : Fin 16, s.w[i] = .written (BitVec.ofInt 32 k)) →
    -2 ^ 31 ≤ k → k < 2 ^ 31 →
    (∃ t, exec .fdct s = .next t ∧ t.w[0] = .written (BitVec.ofInt 32 (16 * k)) ∧
      ∀ i : Fin 16, i ≠ 0 → t.w[i] = .written 0) ∧
    (∃ t, exec .had s = .next t ∧ t.w[0] = .written (BitVec.ofInt 32 (8 * k)) ∧
      ∀ i : Fin 16, i ≠ 0 → t.w[i] = .written 0)) ∧
  ∀ (s s' s'' t t' t'' : State) (x y : Fin 16 → Word),
    (∀ i : Fin 16, s.w[i] = .written (x i)) → (∀ i : Fin 16, s'.w[i] = .written (y i)) →
    (∀ i : Fin 16, s''.w[i] = .written (x i + y i)) →
    exec .fdct s = .next t → exec .fdct s' = .next t' → exec .fdct s'' = .next t'' →
    ∀ (i : Fin 16) (p q : Word), t.w[i] = .written p → t'.w[i] = .written q → t''.w[i] = .written (p + q)

/-- R104 (d): with no wrap in either application, HAD twice multiplies every element by 4 exactly when the element sum
is even. -/
def Obligations.HadTwiceIsFourfoldIffSumEven : Prop :=
  ∀ (s : State) (x : Fin 16 → Word), (∀ i : Fin 16, s.w[i] = .written (x i)) →
    (∀ i : Fin 16, (x i).toInt.natAbs ≤ 33554431) →
    ∃ t u, exec .had s = .next t ∧ exec .had t = .next u ∧
      ((∀ i : Fin 16, u.w[i] = .written (BitVec.ofInt 32 (4 * (x i).toInt))) ↔
        (sum16 fun i => (x i).toInt) % 2 = 0)

/-- R105: the bounds on the exact results of FDCT and HAD, and the ranges in which neither wraps. -/
def Obligations.TransformRangesWithoutWrap : Prop :=
  ∀ (s : State) (x : Fin 16 → Word) (m : Nat), (∀ i : Fin 16, s.w[i] = .written (x i)) →
    (∀ i : Fin 16, (x i).toInt.natAbs ≤ m) →
    (∀ i : Fin 16, (mat Config.matC (fun j => (x j).toInt) i).natAbs ≤ 36 * m ∧
      ((mat Config.matH (fun j => (x j).toInt) i).tdiv 2).natAbs ≤ 8 * m) ∧
    (m ≤ 59652323 → ∃ t, exec .fdct s = .next t ∧ ∀ i : Fin 16, ∃ v : Word, t.w[i] = .written v ∧
      v.toInt = mat Config.matC (fun j => (x j).toInt) i ∧ v.toInt.natAbs ≤ 36 * m) ∧
    (m ≤ 268435455 → ∃ t, exec .had s = .next t ∧ ∀ i : Fin 16, ∃ v : Word, t.w[i] = .written v ∧
      v.toInt = (mat Config.matH (fun j => (x j).toInt) i).tdiv 2 ∧ v.toInt.natAbs ≤ 8 * m) ∧
    (m ≤ 255 → 36 * m ≤ 9180 ∧ 8 * m ≤ 2040)

/-- R114 (a), (c), (d) and (e), for the default multipliers and every legal rounding offset. -/
def Obligations.QuantLevelsAreBounded : Prop :=
  ∀ (s : State) (x : Fin 16 → Word) (hq : s.qp.toNat < 52), (∀ i : Fin 16, s.w[i] = .written (x i)) →
    s.params.mft = Params.default.mft → s.params.wf →
    ∃ t, exec .quant s = .next t ∧ ∀ i : Fin 16, ∃ v : Word, t.w[i] = .written v ∧
      0 ≤ v.toInt ∧
      v.toNat ≤ 2 ^ (31 - (15 + s.qp.toNat / 6)) * 13107 ∧ v.toNat ≤ 858980352 ∧
      (x i = 0 → v = 0) ∧
      (v = 0 ↔ (x i).toInt.natAbs * mf s.params s.qp.toNat i + s.params.qoff[s.qp.toNat] < 2 ^ (15 + s.qp.toNat / 6))

/-- R114 (b) and the sign rule of R113: at one QP and position a larger magnitude gives no smaller level, so equal
magnitudes give equal levels. -/
def Obligations.QuantIsMonotoneInMagnitude : Prop :=
  ∀ (s s' t t' : State) (x y : Fin 16 → Word),
    s.qp = s'.qp → s.qp.toNat < 52 → s.params = s'.params → s.params.mft = Params.default.mft → s.params.wf →
    (∀ i : Fin 16, s.w[i] = .written (x i)) → (∀ i : Fin 16, s'.w[i] = .written (y i)) →
    exec .quant s = .next t → exec .quant s' = .next t' →
    ∀ (i : Fin 16) (p q : Word), t.w[i] = .written p → t'.w[i] = .written q →
      ((x i).toInt.natAbs ≤ (y i).toInt.natAbs → p.toNat ≤ q.toNat) ∧
      ((x i).toInt.natAbs = (y i).toInt.natAbs → p = q)

/-- R132 as far as R131 bears it out: SAD = 0 exactly when A = B; swapping A and B negates W and keeps the sums; SSE is
at least SAD, and SSE = 0 exactly when A = B, where the sum of squares does not wrap (log entry 15). -/
def Obligations.ResidSumsAndSymmetry : Prop :=
  ∀ (s t u : State) (x y : Fin 16 → Word),
    (∀ i : Fin 16, s.a[i] = .written (x i)) → (∀ i : Fin 16, s.b[i] = .written (y i)) →
    exec (.resid false) s = .next t → exec (.resid false) { s with a := s.b, b := s.a } = .next u →
    (t.sad = 0 ↔ ∀ i, x i = y i) ∧
    u.sad = t.sad ∧ u.sse = t.sse ∧
    (∀ (i : Fin 16) (p q : Word), t.w[i] = .written p → u.w[i] = .written q → q = -p) ∧
    ((sum16 fun i => ((x i).toInt - (y i).toInt) * ((x i).toInt - (y i).toInt)) < 2 ^ 64 →
      t.sad.toNat ≤ t.sse.toNat ∧ (t.sse = 0 ↔ ∀ i, x i = y i))

/-- SSE can read 0 after an ACC = 0 RESID of two blocks that differ, because it wraps: the first point of R132 does not
hold without its no-wrap condition (log entry 15). -/
def Obligations.WrappedSseCanReadZero : Prop :=
  ∃ (s t : State) (x y : Fin 16 → Word),
    (∀ i : Fin 16, s.a[i] = .written (x i)) ∧ (∀ i : Fin 16, s.b[i] = .written (y i)) ∧ (∃ i, x i ≠ y i) ∧
    exec (.resid false) s = .next t ∧ t.sse = 0 ∧ t.sad ≠ 0

/-- R136: on a written W, SATD ends in the state of HAD followed by SUMABS. -/
def Obligations.SatdIsHadThenSumabs : Prop :=
  ∀ (s : State) (acc : Bool), (∀ i : Fin 16, s.w[i] ≠ .unwritten) →
    ∃ t u, exec .had s = .next t ∧ exec (.sumabs acc) t = .next u ∧ exec (.satd acc) s = .next u

/-- R138: on a written W, SATDDCT ends in the state of FDCT, QUANT and SUMABS, whatever the tables. -/
def Obligations.SatddctIsFdctQuantThenSumabs : Prop :=
  ∀ (s : State) (acc : Bool), (∀ i : Fin 16, s.w[i] ≠ .unwritten) →
    ∃ t u v, exec .fdct s = .next t ∧ exec .quant t = .next u ∧ exec (.sumabs acc) u = .next v ∧
      exec (.satddct acc) s = .next v

/-- R110 and R111: the position classes, the default tables, and which row and class an element uses. -/
def Obligations.TablesFollowPositionClasses : Prop :=
  (∀ (p : Params) (qp : Nat) (i : Fin 16),
    (i.val / 4 % 2 = 0 → i.val % 4 % 2 = 0 →
      mf p qp i = p.mft[qpRem qp].bothEven ∧ dq p qp i = p.dqt[qpRem qp].bothEven) ∧
    (i.val / 4 % 2 = 1 → i.val % 4 % 2 = 1 →
      mf p qp i = p.mft[qpRem qp].bothOdd ∧ dq p qp i = p.dqt[qpRem qp].bothOdd) ∧
    (i.val / 4 % 2 ≠ i.val % 4 % 2 →
      mf p qp i = p.mft[qpRem qp].mixed ∧ dq p qp i = p.dqt[qpRem qp].mixed) ∧
    (qpRem qp).val = qp % 6) ∧
  Params.default.mft.toList.map (fun r => [r.bothEven, r.bothOdd, r.mixed]) =
    [[13107, 5243, 8066], [11916, 4660, 7490], [10082, 4194, 6554], [9362, 3647, 5825], [8192, 3355, 5243],
     [7282, 2893, 4559]] ∧
  (List.finRange 16).map (mf Params.default 0) =
    [13107, 8066, 13107, 8066, 8066, 5243, 8066, 5243, 13107, 8066, 13107, 8066, 8066, 5243, 8066, 5243] ∧
  Params.default.dqt.toList.map (fun r => [r.bothEven, r.bothOdd, r.mixed]) =
    [[10, 16, 13], [11, 18, 14], [13, 20, 16], [14, 23, 18], [16, 25, 20], [18, 29, 23]]

/-- R112: the default rounding offsets, and that they meet the constraint. -/
def Obligations.DefaultRoundingOffsets : Prop :=
  Params.default.wf ∧
  (∀ qp : Fin 52, Params.default.qoff[qp] = 2 ^ (15 + qp.val / 6) / 3) ∧
  [0, 6, 12, 18, 24, 30, 36, 42, 48].map (qoff Params.default) =
    [10922, 21845, 43690, 87381, 174762, 349525, 699050, 1398101, 2796202]

/-! ## Host accesses -/

/-- R161, R162 and R165: what a 32-bit write to CMD does in each case, and that any other width is an ACCESS error. -/
def Obligations.CommandWriteRejectsOrLaunches : Prop :=
  ∀ (s : State) (v : Word) (size : Nat) (rest : List Event), s.inReset = false → s.inputs = .write 0x04 size v :: rest →
    (size ≠ 4 → step s = .next { s with
      err := true, errcode := if s.err then s.errcode else .access
      inputs := rest, outputs := s.outputs ++ [.writeDone Config.busErrSignal] }) ∧
    (size = 4 →
      (s.pend ≠ none → step s = .next { s with
        err := true, errcode := if s.err then s.errcode else .busy
        inputs := rest, outputs := s.outputs ++ [.writeDone false] }) ∧
      (s.pend = none → (∀ i, decode v ≠ .cmd i) → step s = .next { s with
        done := true, err := true, errcode := if s.err then s.errcode else .illegalCmd
        inputs := rest, outputs := s.outputs ++ [.writeDone false] }) ∧
      (∀ i, s.pend = none → decode v = .cmd i → i.opcode ∈ [0x4, 0x5, 0x8] → 51 < s.qp.toNat → step s = .next { s with
        done := true, err := true, errcode := if s.err then s.errcode else .qpRange
        inputs := rest, outputs := s.outputs ++ [.writeDone false] }) ∧
      (∀ i, s.pend = none → decode v = .cmd i → (i.opcode ∉ [0x4, 0x5, 0x8] ∨ s.qp.toNat ≤ 51) → step s = .next { s with
        pend := some v, done := false
        inputs := rest, outputs := s.outputs ++ [.writeDone false] }))

/-- R51, R53 and R163: a bad access, a write to a read-only register, and a write that a command in flight drops only
record their code; a bad read returns 0. -/
def Obligations.BadAccessesAndBusyWritesOnlyRecord : Prop :=
  (∀ (s : State) (off : Fin 256) (size : Nat) (rest : List Event), s.inReset = false →
    (size ≠ 4 ∨ off.val % 4 ≠ 0 ∨ (0x30 ≤ off.val ∧ off.val ≤ 0x3C)) →
    (s.inputs = .read off size :: rest → step s = .next { s with
      err := true, errcode := if s.err then s.errcode else .access
      inputs := rest, outputs := s.outputs ++ [.readData 0 Config.busErrSignal] }) ∧
    (∀ v, s.inputs = .write off size v :: rest → step s = .next { s with
      err := true, errcode := if s.err then s.errcode else .access
      inputs := rest, outputs := s.outputs ++ [.writeDone Config.busErrSignal] })) ∧
  (∀ (s : State) (off : Fin 256) (v : Word) (rest : List Event), s.inReset = false →
    off.val ∈ [0x00, 0x14, 0x18, 0x1C, 0x20, 0x24, 0x28, 0x2C] → s.inputs = .write off 4 v :: rest →
    step s = .next { s with
      err := true, errcode := if s.err then s.errcode else .access
      inputs := rest, outputs := s.outputs ++ [.writeDone Config.busErrSignal] }) ∧
  ∀ (s : State) (off : Fin 256) (v : Word) (rest : List Event), s.inReset = false →
    off.val % 4 = 0 → (off.val = 0x10 ∨ 0x40 ≤ off.val) → s.pend ≠ none → s.inputs = .write off 4 v :: rest →
    step s = .next { s with
      err := true, errcode := if s.err then s.errcode else .busy
      inputs := rest, outputs := s.outputs ++ [.writeDone false] }

/-- R52 and R54, writes: the block elements, QP, CTRL and STATUS (CMD, the bad accesses and the busy writes have statements
of their own). -/
def Obligations.GoodWritesStoreTheirRegister : Prop :=
  ∀ (s : State) (off : Fin 256) (v : Word) (rest : List Event), s.inReset = false → s.inputs = .write off 4 v :: rest →
    (off.val = 0x08 → step s = .next { s with
      done := s.done && !v.getLsbD 1, err := s.err && !v.getLsbD 2
      errcode := if v.getLsbD 2 then .noError else s.errcode
      inputs := rest, outputs := s.outputs ++ [.writeDone false] }) ∧
    (off.val = 0x0C → step s = .next { s with
      ie := v.getLsbD 0, inputs := rest, outputs := s.outputs ++ [.writeDone false] }) ∧
    (s.pend = none →
      (off.val = 0x10 → step s = .next { s with
        qp := BitVec.ofNat 6 v.toNat, inputs := rest, outputs := s.outputs ++ [.writeDone false] }) ∧
      ∀ i : Fin 16,
        (off.val = 0x40 + 4 * i.val → step s = .next { s with
          a := s.a.set i (.written v), inputs := rest, outputs := s.outputs ++ [.writeDone false] }) ∧
        (off.val = 0x80 + 4 * i.val → step s = .next { s with
          b := s.b.set i (.written v), inputs := rest, outputs := s.outputs ++ [.writeDone false] }) ∧
        (off.val = 0xC0 + 4 * i.val → step s = .next { s with
          w := s.w.set i (.written v), inputs := rest, outputs := s.outputs ++ [.writeDone false] }))

/-- R33: a read while a command is in flight: the control registers answer their value, every other register an
unspecified one, and no register changes. That the unspecified value is the draw at the model's own counter, which then
advances, is the model's choice (log entry 4). -/
def Obligations.ReadsWhileBusy : Prop :=
  ∀ (s : State) (off : Fin 256) (rest : List Event), s.inReset = false → s.inputs = .read off 4 :: rest →
    s.pend ≠ none → off.val % 4 = 0 →
    let answer := fun v : Word =>
      Host.Outcome.next (φ := Fault) (ρ := Refusal) { s with inputs := rest, outputs := s.outputs ++ [.readData v false] }
    (off.val = 0x00 → step s = answer 0x54514401) ∧
    (off.val = 0x04 → step s = answer 0) ∧
    (off.val = 0x08 → step s = answer (statusWord s)) ∧
    (off.val = 0x0C → step s = answer (if s.ie then 1 else 0)) ∧
    (off.val = 0x10 → step s = answer (BitVec.ofNat 32 s.qp.toNat)) ∧
    (off.val ∈ [0x14, 0x18, 0x1C, 0x20, 0x24, 0x28, 0x2C] ∨ 0x40 ≤ off.val → step s = .next { s with
      draws := s.draws + 1, inputs := rest
      outputs := s.outputs ++ [.readData ((Config.draw s.draws).setWidth 32) false] })

/-- R52 and R54, reads while no command is in flight: every register of the map, unwritten elements included. That the
unspecified value is the draw at the model's own counter, which then advances, is the model's choice (log entry 4). -/
def Obligations.ReadsReturnTheRegisterMap : Prop :=
  ∀ (s : State) (off : Fin 256) (rest : List Event), s.inReset = false → s.inputs = .read off 4 :: rest → s.pend = none →
    let answer := fun v : Word =>
      Host.Outcome.next (φ := Fault) (ρ := Refusal) { s with inputs := rest, outputs := s.outputs ++ [.readData v false] }
    let unspecified : Host.Outcome State Fault Refusal := .next { s with
      draws := s.draws + 1, inputs := rest
      outputs := s.outputs ++ [.readData ((Config.draw s.draws).setWidth 32) false] }
    (off.val = 0x00 → step s = answer 0x54514401) ∧
    (off.val = 0x04 → step s = answer 0) ∧
    (off.val = 0x08 → step s = answer (statusWord s)) ∧
    (off.val = 0x0C → step s = answer (if s.ie then 1 else 0)) ∧
    (off.val = 0x10 → step s = answer (BitVec.ofNat 32 s.qp.toNat)) ∧
    (off.val = 0x14 → step s = answer (BitVec.ofNat 32 s.nzcnt.toNat)) ∧
    (off.val = 0x18 → step s = answer (BitVec.ofNat 32 s.sad.toNat)) ∧
    (off.val = 0x1C → step s = answer (BitVec.ofNat 32 (s.sad.toNat / 2 ^ 32))) ∧
    (off.val = 0x20 → step s = answer (BitVec.ofNat 32 s.sse.toNat)) ∧
    (off.val = 0x24 → step s = answer (BitVec.ofNat 32 (s.sse.toNat / 2 ^ 32))) ∧
    (off.val = 0x28 → step s = answer (BitVec.ofNat 32 s.satd.toNat)) ∧
    (off.val = 0x2C → step s = answer (BitVec.ofNat 32 (s.satd.toNat / 2 ^ 32))) ∧
    ∀ i : Fin 16,
      (off.val = 0x40 + 4 * i.val →
        (∀ v, s.a[i] = .written v → step s = answer v) ∧ (s.a[i] = .unwritten → step s = unspecified)) ∧
      (off.val = 0x80 + 4 * i.val →
        (∀ v, s.b[i] = .written v → step s = answer v) ∧ (s.b[i] = .unwritten → step s = unspecified)) ∧
      (off.val = 0xC0 + 4 * i.val →
        (∀ v, s.w[i] = .written v → step s = answer v) ∧ (s.w[i] = .unwritten → step s = unspecified))

/-- R22, the layout of STATUS, and R23: BUSY reads 1 exactly while a command is in flight. -/
def Obligations.StatusWordLayout : Prop :=
  ∀ s : State,
    (statusWord s).getLsbD 0 = s.pend.isSome ∧ (statusWord s).getLsbD 1 = s.done ∧ (statusWord s).getLsbD 2 = s.err ∧
    (statusWord s).getLsbD 3 = false ∧ (statusWord s).toNat < 2 ^ 8 ∧
    (s.errcode = .noError → (statusWord s).toNat / 2 ^ 4 = 0) ∧
    (s.errcode = .illegalCmd → (statusWord s).toNat / 2 ^ 4 = 1) ∧
    (s.errcode = .qpRange → (statusWord s).toNat / 2 ^ 4 = 2) ∧
    (s.errcode = .busy → (statusWord s).toNat / 2 ^ 4 = 3) ∧
    (s.errcode = .access → (statusWord s).toNat / 2 ^ 4 = 4)

/-- R26: CTRL holds IE alone; it is written even while a command is in flight, reads back as bit 0, gates the interrupt
line and affects no computation. -/
def Obligations.CtrlHoldsTheInterruptEnable : Prop :=
  ∀ (s : State) (v : Word) (rest : List Event), s.inReset = false →
    (s.inputs = .write 0x0C 4 v :: rest → step s = .next { s with
      ie := v.getLsbD 0, inputs := rest, outputs := s.outputs ++ [.writeDone false] }) ∧
    (s.inputs = .read 0x0C 4 :: rest → step s = .next { s with
      inputs := rest, outputs := s.outputs ++ [.readData (if s.ie then 1 else 0) false] }) ∧
    State.reset.ie = false ∧ irq s = (s.ie && (s.done || s.err)) ∧
    ∀ (i : Instr) (t : State), exec i s = .next t → ∀ b, exec i { s with ie := b } = .next { t with ie := b }

/-- R27: QP stores the low six bits of what is written while no command is in flight, is checked only when a command that
uses it is written, and resets to 28. -/
def Obligations.QpIsCheckedOnlyAtACommand : Prop :=
  ∀ (s : State) (v : Word) (rest : List Event), s.inReset = false →
    (s.inputs = .write 0x10 4 v :: rest →
      (s.pend = none → step s = .next { s with
        qp := BitVec.ofNat 6 v.toNat, inputs := rest, outputs := s.outputs ++ [.writeDone false] }) ∧
      (s.pend ≠ none → step s = .next { s with
        err := true, errcode := if s.err then s.errcode else .busy
        inputs := rest, outputs := s.outputs ++ [.writeDone false] })) ∧
    (s.inputs = .read 0x10 4 :: rest → step s = .next { s with
      inputs := rest, outputs := s.outputs ++ [.readData (BitVec.ofNat 32 s.qp.toNat) false] }) ∧
    (s.inputs = .write 0x04 4 v :: rest → s.pend = none → 51 < s.qp.toNat →
      ∀ i, decode v = .cmd i → i.opcode ∈ [0x4, 0x5, 0x8] → step s = .next { s with
        done := true, err := true, errcode := if s.err then s.errcode else .qpRange
        inputs := rest, outputs := s.outputs ++ [.writeDone false] }) ∧
    State.reset.qp = 28

/-- R50: TQD_BASE is a multiple of 256, and an access reaches the block exactly at the 256 addresses from it on. -/
def Obligations.WindowIs256BytesAtItsBase : Prop :=
  Config.tqdBase % 256 = 0 ∧
  (∀ (off : Fin 256) (size : Nat) (v : Word),
    memRead (Config.tqdBase + off.val) size = some (.read off size) ∧
    memWrite (Config.tqdBase + off.val) size v = some (.write off size v)) ∧
  ∀ (addr size : Nat) (v : Word), (addr < Config.tqdBase ∨ Config.tqdBase + 256 ≤ addr) →
    memRead addr size = none ∧ memWrite addr size v = none

/-! ## Status, interrupt and reset over a step -/

/-- R23 with R190: BUSY changes only at a launch, at the engine's completion, and when reset is asserted or released. -/
def Obligations.BusyChangesOnlyByLaunchCompletionOrReset : Prop :=
  ∀ s t : State, step s = .next t → t.pend ≠ s.pend →
    (∃ v rest, s.inputs = .write 0x04 4 v :: rest ∧ s.pend = none ∧ t.pend = some v ∧ t.done = false) ∨
    ((s.inputs = [] ∨ ∃ rest, s.inputs = .engine :: rest) ∧ t.pend = none ∧ t.done = true) ∨
    (∃ rest, (s.inputs = .resetAssert :: rest ∨ s.inputs = .resetRelease :: rest) ∧ t.pend = none)

/-- R24 with R190: the only events that change DONE. That asserting reset is none of them, DONE keeping its value until the
release, is the model's choice (log entry 10). -/
def Obligations.DoneChangesOnlyAtTheListedEvents : Prop :=
  ∀ s t : State, step s = .next t → t.done ≠ s.done →
    (t.done = false ∧ ∃ v rest, s.inputs = .write 0x04 4 v :: rest ∧ t.pend = some v) ∨
    (t.done = true ∧ (s.inputs = [] ∨ ∃ rest, s.inputs = .engine :: rest) ∧ s.pend ≠ none ∧ t.pend = none) ∨
    (t.done = true ∧ ∃ v rest, s.inputs = .write 0x04 4 v :: rest ∧ s.pend = none ∧ t.pend = none ∧ t.err = true) ∨
    (t.done = false ∧ ∃ v rest, s.inputs = .write 0x08 4 v :: rest ∧ v.getLsbD 1 = true) ∨
    (t.done = false ∧ ∃ rest, s.inputs = .resetRelease :: rest ∧ s.inReset = true)

/-- R25: a recorded error stays, with its code, until a write of 1 to STATUS bit 2 or a reset; those clear both. That reset
clears them at its release and not at its assertion is the model's choice (log entry 10). -/
def Obligations.FirstErrorIsKeptUntilCleared : Prop :=
  ∀ s t : State, step s = .next t → s.err = true →
    (t.err = true ∧ t.errcode = s.errcode) ∨
    (t.err = false ∧ t.errcode = .noError ∧
      ((∃ v rest, s.inputs = .write 0x08 4 v :: rest ∧ v.getLsbD 2 = true) ∨
       (∃ rest, s.inputs = .resetRelease :: rest ∧ s.inReset = true)))

/-- R170: the interrupt line, what completion and a command write rejected with any of the three codes (R171) make of it,
and the two ways to stop it. -/
def Obligations.IrqFollowsDoneAndErr : Prop :=
  (∀ s : State, irq s = true ↔ s.ie = true ∧ (s.done = true ∨ s.err = true)) ∧
  (∀ (i : Instr) (s t : State), exec i s = .next t → irq t = s.ie) ∧
  (∀ (s : State) (v : Word) (rest : List Event), s.inReset = false → s.inputs = .write 0x04 4 v :: rest →
    (s.pend ≠ none ∨ (∀ i, decode v ≠ .cmd i) ∨
      ∃ i, decode v = .cmd i ∧ i.opcode ∈ [0x4, 0x5, 0x8] ∧ 51 < s.qp.toNat) →
    ∃ t, step s = .next t ∧ irq t = s.ie) ∧
  (∀ (s : State) (rest : List Event), s.inReset = false → s.inputs = .write 0x08 4 0x6#32 :: rest →
    ∃ t, step s = .next t ∧ irq t = false) ∧
  ∀ (s : State) (v : Word) (rest : List Event), s.inReset = false → s.inputs = .write 0x0C 4 v :: rest →
    v.getLsbD 0 = false → ∃ t, step s = .next t ∧ irq t = false

/-- R32: while a command is in flight, no host access changes the command, its operands or its results. -/
def Obligations.OperandsStandWhileBusy : Prop :=
  ∀ s t : State, s.pend ≠ none → s.accessNext = true → step s = .next t →
    t.pend = s.pend ∧ (t.done = true → s.done = true) ∧ t.a = s.a ∧ t.b = s.b ∧ t.w = s.w ∧ t.qp = s.qp ∧ t.nzcnt = s.nzcnt ∧
    t.sad = s.sad ∧ t.sse = s.sse ∧ t.satd = s.satd

/-- R194, both orders of R60: a write to W that comes before the completion is dropped and recorded, and the command's
results are whole; one that comes after it lands, and leaves the other results. -/
def Obligations.WriteAfterLaunchIsDroppedUntilCompletion : Prop :=
  ∀ (s : State) (c v : Word) (i : Instr) (k : Fin 16) (off : Fin 256), s.inReset = false → s.err = false →
    s.pend = some c → decode c = .cmd i → off.val = 0xC0 + 4 * k.val →
    (s.inputs = [.write off 4 v, .engine] → ∃ t u, exec i { s with inputs := [] } = .next t ∧
      core.run 2 s = .next u ∧ u.w = t.w ∧ u.nzcnt = t.nzcnt ∧ u.sad = t.sad ∧ u.sse = t.sse ∧ u.satd = t.satd ∧
      u.err = true ∧ u.errcode = .busy ∧ u.pend = none) ∧
    (s.inputs = [.engine, .write off 4 v] → ∃ t u, exec i { s with inputs := [] } = .next t ∧
      core.run 2 s = .next u ∧ u.w = t.w.set k (.written v) ∧ u.nzcnt = t.nzcnt ∧ u.sad = t.sad ∧ u.sse = t.sse ∧
      u.satd = t.satd ∧ u.err = false ∧ u.pend = none)

/-- R56: with no command in flight, the two halves of an accumulator read one after the other make one value. -/
def Obligations.AccumulatorHalvesMakeOneValue : Prop :=
  ∀ (s : State) (rest : List Event), s.inReset = false → s.pend = none →
    (s.inputs = .read 0x18 4 :: .read 0x1C 4 :: rest → ∃ u lo hi, core.run 2 s = .next u ∧
      u.outputs = s.outputs ++ [.readData lo false, .readData hi false] ∧ hi ++ lo = s.sad) ∧
    (s.inputs = .read 0x20 4 :: .read 0x24 4 :: rest → ∃ u lo hi, core.run 2 s = .next u ∧
      u.outputs = s.outputs ++ [.readData lo false, .readData hi false] ∧ hi ++ lo = s.sse) ∧
    (s.inputs = .read 0x28 4 :: .read 0x2C 4 :: rest → ∃ u lo hi, core.run 2 s = .next u ∧
      u.outputs = s.outputs ++ [.readData lo false, .readData hi false] ∧ hi ++ lo = s.satd)

/-- R191 and R192: the state after reset. -/
def Obligations.ResetStateIsAsListed : Prop :=
  (∀ i : Fin 16, State.reset.a[i] = .unwritten ∧ State.reset.b[i] = .unwritten ∧ State.reset.w[i] = .unwritten) ∧
  statusWord State.reset = 0 ∧ ctrlWord State.reset = 0 ∧ State.reset.qp = 28 ∧ State.reset.nzcnt = 0 ∧
  State.reset.sad = 0 ∧ State.reset.sse = 0 ∧ State.reset.satd = 0 ∧ State.reset.pend = none ∧
  irq State.reset = false ∧ Config.idValue = 0x54514401

/-- R190: asserting reset abandons the command in flight with no result written; until the release no access is answered;
the release gives every register its reset value. The registers' values between the two, and that the model's own fields
stay, are the model's choice (log entry 10). -/
def Obligations.ResetInputAbandonsAndRestores : Prop :=
  ∀ (s : State) (rest : List Event),
    (s.inputs = .resetAssert :: rest → step s = .next { s with pend := none, inReset := true, inputs := rest }) ∧
    (s.inReset = true → s.accessNext = true → step s = .refused .accessDuringReset) ∧
    (s.inReset = true → s.inputs = .resetRelease :: rest →
      step s = .next { State.reset with
        params := s.params, draws := s.draws, inputs := rest, outputs := s.outputs })

/-! ## The whole machine -/

/-- State.reset meets the invariant. -/
def Obligations.ResetMeetsTheInvariant : Prop := State.reset.Inv

/-- Every step keeps the invariant. -/
def Obligations.EveryStepKeepsTheInvariant : Prop :=
  ∀ s t : State, s.Inv → step s = .next t → t.Inv

/-- From every state that meets the invariant the machine goes on, but for a host access while reset is asserted. -/
def Obligations.MachineStopsOnlyOnAccessDuringReset : Prop :=
  ∀ s : State, s.Inv →
    (s.inReset = true ∧ s.accessNext = true ∧ step s = .refused .accessDuringReset) ∨
    (¬(s.inReset = true ∧ s.accessNext = true) ∧ ∃ t, step s = .next t)

/-- No step changes the machine's parameters. -/
def Obligations.ParametersNeverChange : Prop :=
  ∀ s t : State, step s = .next t → t.params = s.params

/-- With reset released throughout, every host access is answered exactly once and, one step after the last event at the
latest, no command is in flight (the empty list's engine turn is log entry 2). -/
def Obligations.EveryAccessIsAnsweredAndCommandsComplete : Prop :=
  ∀ s : State, s.Inv → s.inReset = false → (∀ e ∈ s.inputs, e ≠ .resetAssert) →
    ∃ t, core.run (s.inputs.length + 1) s = .next t ∧ t.inputs = [] ∧ t.pend = none ∧
      t.outputs.length = s.outputs.length +
        (s.inputs.filter fun e => e ≠ .engine ∧ e ≠ .resetRelease).length
end

