-- ==== Sys2Proof/Laws/State.lean ====
section
/-! SUPPORT. What each named update of State leaves in each field. -/

namespace Sys2Proof.Machine

/-! ### Launch -/

@[simp] theorem launch_a (v : Word) (s : State) : (launch v s).a = s.a := rfl
@[simp] theorem launch_b (v : Word) (s : State) : (launch v s).b = s.b := rfl
@[simp] theorem launch_w (v : Word) (s : State) : (launch v s).w = s.w := rfl
@[simp] theorem launch_done (v : Word) (s : State) : (launch v s).done = false := rfl
@[simp] theorem launch_err (v : Word) (s : State) : (launch v s).err = s.err := rfl
@[simp] theorem launch_errcode (v : Word) (s : State) : (launch v s).errcode = s.errcode := rfl
@[simp] theorem launch_ie (v : Word) (s : State) : (launch v s).ie = s.ie := rfl
@[simp] theorem launch_qp (v : Word) (s : State) : (launch v s).qp = s.qp := rfl
@[simp] theorem launch_nzcnt (v : Word) (s : State) : (launch v s).nzcnt = s.nzcnt := rfl
@[simp] theorem launch_sad (v : Word) (s : State) : (launch v s).sad = s.sad := rfl
@[simp] theorem launch_sse (v : Word) (s : State) : (launch v s).sse = s.sse := rfl
@[simp] theorem launch_satd (v : Word) (s : State) : (launch v s).satd = s.satd := rfl
@[simp] theorem launch_pend (v : Word) (s : State) : (launch v s).pend = some v := rfl
@[simp] theorem launch_inReset (v : Word) (s : State) : (launch v s).inReset = s.inReset := rfl
@[simp] theorem launch_params (v : Word) (s : State) : (launch v s).params = s.params := rfl
@[simp] theorem launch_draws (v : Word) (s : State) : (launch v s).draws = s.draws := rfl
@[simp] theorem launch_inputs (v : Word) (s : State) : (launch v s).inputs = s.inputs := rfl
@[simp] theorem launch_outputs (v : Word) (s : State) : (launch v s).outputs = s.outputs := rfl

/-! ### Completion -/

@[simp] theorem complete_a (s : State) : (complete s).a = s.a := rfl
@[simp] theorem complete_b (s : State) : (complete s).b = s.b := rfl
@[simp] theorem complete_w (s : State) : (complete s).w = s.w := rfl
@[simp] theorem complete_done (s : State) : (complete s).done = true := rfl
@[simp] theorem complete_err (s : State) : (complete s).err = s.err := rfl
@[simp] theorem complete_errcode (s : State) : (complete s).errcode = s.errcode := rfl
@[simp] theorem complete_ie (s : State) : (complete s).ie = s.ie := rfl
@[simp] theorem complete_qp (s : State) : (complete s).qp = s.qp := rfl
@[simp] theorem complete_nzcnt (s : State) : (complete s).nzcnt = s.nzcnt := rfl
@[simp] theorem complete_sad (s : State) : (complete s).sad = s.sad := rfl
@[simp] theorem complete_sse (s : State) : (complete s).sse = s.sse := rfl
@[simp] theorem complete_satd (s : State) : (complete s).satd = s.satd := rfl
@[simp] theorem complete_pend (s : State) : (complete s).pend = none := rfl
@[simp] theorem complete_inReset (s : State) : (complete s).inReset = s.inReset := rfl
@[simp] theorem complete_params (s : State) : (complete s).params = s.params := rfl
@[simp] theorem complete_draws (s : State) : (complete s).draws = s.draws := rfl
@[simp] theorem complete_inputs (s : State) : (complete s).inputs = s.inputs := rfl
@[simp] theorem complete_outputs (s : State) : (complete s).outputs = s.outputs := rfl

/-! ### Draws of a command -/

@[simp] theorem spendDraws_a (s : State) : (spendDraws s).a = s.a := rfl
@[simp] theorem spendDraws_b (s : State) : (spendDraws s).b = s.b := rfl
@[simp] theorem spendDraws_w (s : State) : (spendDraws s).w = s.w := rfl
@[simp] theorem spendDraws_done (s : State) : (spendDraws s).done = s.done := rfl
@[simp] theorem spendDraws_err (s : State) : (spendDraws s).err = s.err := rfl
@[simp] theorem spendDraws_errcode (s : State) : (spendDraws s).errcode = s.errcode := rfl
@[simp] theorem spendDraws_ie (s : State) : (spendDraws s).ie = s.ie := rfl
@[simp] theorem spendDraws_qp (s : State) : (spendDraws s).qp = s.qp := rfl
@[simp] theorem spendDraws_nzcnt (s : State) : (spendDraws s).nzcnt = s.nzcnt := rfl
@[simp] theorem spendDraws_sad (s : State) : (spendDraws s).sad = s.sad := rfl
@[simp] theorem spendDraws_sse (s : State) : (spendDraws s).sse = s.sse := rfl
@[simp] theorem spendDraws_satd (s : State) : (spendDraws s).satd = s.satd := rfl
@[simp] theorem spendDraws_pend (s : State) : (spendDraws s).pend = s.pend := rfl
@[simp] theorem spendDraws_inReset (s : State) : (spendDraws s).inReset = s.inReset := rfl
@[simp] theorem spendDraws_params (s : State) : (spendDraws s).params = s.params := rfl
@[simp] theorem spendDraws_draws (s : State) : (spendDraws s).draws = s.draws + drawsPerCommand := rfl
@[simp] theorem spendDraws_inputs (s : State) : (spendDraws s).inputs = s.inputs := rfl
@[simp] theorem spendDraws_outputs (s : State) : (spendDraws s).outputs = s.outputs := rfl

/-! ### Answer to the host -/

@[simp] theorem respond_a (r : Response) (s : State) : (respond r s).a = s.a := rfl
@[simp] theorem respond_b (r : Response) (s : State) : (respond r s).b = s.b := rfl
@[simp] theorem respond_w (r : Response) (s : State) : (respond r s).w = s.w := rfl
@[simp] theorem respond_done (r : Response) (s : State) : (respond r s).done = s.done := rfl
@[simp] theorem respond_err (r : Response) (s : State) : (respond r s).err = s.err := rfl
@[simp] theorem respond_errcode (r : Response) (s : State) : (respond r s).errcode = s.errcode := rfl
@[simp] theorem respond_ie (r : Response) (s : State) : (respond r s).ie = s.ie := rfl
@[simp] theorem respond_qp (r : Response) (s : State) : (respond r s).qp = s.qp := rfl
@[simp] theorem respond_nzcnt (r : Response) (s : State) : (respond r s).nzcnt = s.nzcnt := rfl
@[simp] theorem respond_sad (r : Response) (s : State) : (respond r s).sad = s.sad := rfl
@[simp] theorem respond_sse (r : Response) (s : State) : (respond r s).sse = s.sse := rfl
@[simp] theorem respond_satd (r : Response) (s : State) : (respond r s).satd = s.satd := rfl
@[simp] theorem respond_pend (r : Response) (s : State) : (respond r s).pend = s.pend := rfl
@[simp] theorem respond_inReset (r : Response) (s : State) : (respond r s).inReset = s.inReset := rfl
@[simp] theorem respond_params (r : Response) (s : State) : (respond r s).params = s.params := rfl
@[simp] theorem respond_draws (r : Response) (s : State) : (respond r s).draws = s.draws := rfl
@[simp] theorem respond_inputs (r : Response) (s : State) : (respond r s).inputs = s.inputs := rfl
@[simp] theorem respond_outputs (r : Response) (s : State) : (respond r s).outputs = s.outputs ++ [r] := rfl

/-! ### Write to STATUS -/

@[simp] theorem statusWrite_a (v : Word) (s : State) : (statusWrite v s).a = s.a := rfl
@[simp] theorem statusWrite_b (v : Word) (s : State) : (statusWrite v s).b = s.b := rfl
@[simp] theorem statusWrite_w (v : Word) (s : State) : (statusWrite v s).w = s.w := rfl
@[simp] theorem statusWrite_done (v : Word) (s : State) : (statusWrite v s).done = if v.getLsbD 1 then false else s.done := rfl
@[simp] theorem statusWrite_err (v : Word) (s : State) : (statusWrite v s).err = if v.getLsbD 2 then false else s.err := rfl
@[simp] theorem statusWrite_errcode (v : Word) (s : State) : (statusWrite v s).errcode = if v.getLsbD 2 then .noError else s.errcode := rfl
@[simp] theorem statusWrite_ie (v : Word) (s : State) : (statusWrite v s).ie = s.ie := rfl
@[simp] theorem statusWrite_qp (v : Word) (s : State) : (statusWrite v s).qp = s.qp := rfl
@[simp] theorem statusWrite_nzcnt (v : Word) (s : State) : (statusWrite v s).nzcnt = s.nzcnt := rfl
@[simp] theorem statusWrite_sad (v : Word) (s : State) : (statusWrite v s).sad = s.sad := rfl
@[simp] theorem statusWrite_sse (v : Word) (s : State) : (statusWrite v s).sse = s.sse := rfl
@[simp] theorem statusWrite_satd (v : Word) (s : State) : (statusWrite v s).satd = s.satd := rfl
@[simp] theorem statusWrite_pend (v : Word) (s : State) : (statusWrite v s).pend = s.pend := rfl
@[simp] theorem statusWrite_inReset (v : Word) (s : State) : (statusWrite v s).inReset = s.inReset := rfl
@[simp] theorem statusWrite_params (v : Word) (s : State) : (statusWrite v s).params = s.params := rfl
@[simp] theorem statusWrite_draws (v : Word) (s : State) : (statusWrite v s).draws = s.draws := rfl
@[simp] theorem statusWrite_inputs (v : Word) (s : State) : (statusWrite v s).inputs = s.inputs := rfl
@[simp] theorem statusWrite_outputs (v : Word) (s : State) : (statusWrite v s).outputs = s.outputs := rfl

/-! ### Reset asserted -/

@[simp] theorem resetAssert_a (s : State) : (resetAssert s).a = s.a := rfl
@[simp] theorem resetAssert_b (s : State) : (resetAssert s).b = s.b := rfl
@[simp] theorem resetAssert_w (s : State) : (resetAssert s).w = s.w := rfl
@[simp] theorem resetAssert_done (s : State) : (resetAssert s).done = s.done := rfl
@[simp] theorem resetAssert_err (s : State) : (resetAssert s).err = s.err := rfl
@[simp] theorem resetAssert_errcode (s : State) : (resetAssert s).errcode = s.errcode := rfl
@[simp] theorem resetAssert_ie (s : State) : (resetAssert s).ie = s.ie := rfl
@[simp] theorem resetAssert_qp (s : State) : (resetAssert s).qp = s.qp := rfl
@[simp] theorem resetAssert_nzcnt (s : State) : (resetAssert s).nzcnt = s.nzcnt := rfl
@[simp] theorem resetAssert_sad (s : State) : (resetAssert s).sad = s.sad := rfl
@[simp] theorem resetAssert_sse (s : State) : (resetAssert s).sse = s.sse := rfl
@[simp] theorem resetAssert_satd (s : State) : (resetAssert s).satd = s.satd := rfl
@[simp] theorem resetAssert_pend (s : State) : (resetAssert s).pend = none := rfl
@[simp] theorem resetAssert_inReset (s : State) : (resetAssert s).inReset = true := rfl
@[simp] theorem resetAssert_params (s : State) : (resetAssert s).params = s.params := rfl
@[simp] theorem resetAssert_draws (s : State) : (resetAssert s).draws = s.draws := rfl
@[simp] theorem resetAssert_inputs (s : State) : (resetAssert s).inputs = s.inputs := rfl
@[simp] theorem resetAssert_outputs (s : State) : (resetAssert s).outputs = s.outputs := rfl

/-! ### Recording an error -/

/-- `record` sets ERR, and the code if ERR was clear (R25). -/
theorem record_eq (k : ErrCode) (s : State) :
    record k s = { s with err := true, errcode := if s.err then s.errcode else k } := by
  cases s with | _ _ _ _ _ err => cases err <;> rfl

@[simp] theorem record_a (k : ErrCode) (s : State) : (record k s).a = s.a := by rw [record_eq]
@[simp] theorem record_b (k : ErrCode) (s : State) : (record k s).b = s.b := by rw [record_eq]
@[simp] theorem record_w (k : ErrCode) (s : State) : (record k s).w = s.w := by rw [record_eq]
@[simp] theorem record_done (k : ErrCode) (s : State) : (record k s).done = s.done := by rw [record_eq]
@[simp] theorem record_err (k : ErrCode) (s : State) : (record k s).err = true := by rw [record_eq]
@[simp] theorem record_errcode (k : ErrCode) (s : State) : (record k s).errcode = if s.err then s.errcode else k := by rw [record_eq]
@[simp] theorem record_ie (k : ErrCode) (s : State) : (record k s).ie = s.ie := by rw [record_eq]
@[simp] theorem record_qp (k : ErrCode) (s : State) : (record k s).qp = s.qp := by rw [record_eq]
@[simp] theorem record_nzcnt (k : ErrCode) (s : State) : (record k s).nzcnt = s.nzcnt := by rw [record_eq]
@[simp] theorem record_sad (k : ErrCode) (s : State) : (record k s).sad = s.sad := by rw [record_eq]
@[simp] theorem record_sse (k : ErrCode) (s : State) : (record k s).sse = s.sse := by rw [record_eq]
@[simp] theorem record_satd (k : ErrCode) (s : State) : (record k s).satd = s.satd := by rw [record_eq]
@[simp] theorem record_pend (k : ErrCode) (s : State) : (record k s).pend = s.pend := by rw [record_eq]
@[simp] theorem record_inReset (k : ErrCode) (s : State) : (record k s).inReset = s.inReset := by rw [record_eq]
@[simp] theorem record_params (k : ErrCode) (s : State) : (record k s).params = s.params := by rw [record_eq]
@[simp] theorem record_draws (k : ErrCode) (s : State) : (record k s).draws = s.draws := by rw [record_eq]
@[simp] theorem record_inputs (k : ErrCode) (s : State) : (record k s).inputs = s.inputs := by rw [record_eq]
@[simp] theorem record_outputs (k : ErrCode) (s : State) : (record k s).outputs = s.outputs := by rw [record_eq]

theorem reject_eq (k : ErrCode) (s : State) :
    reject k s = { s with err := true, errcode := if s.err then s.errcode else k, done := true } := by
  rw [reject, record_eq]

theorem resetRelease_of_inReset (s : State) (h : s.inReset = true) :
    resetRelease s = { State.reset with
      params := s.params, draws := s.draws, inputs := s.inputs, outputs := s.outputs } := by
  simp [resetRelease, h]

theorem resetRelease_of_released (s : State) (h : s.inReset = false) : resetRelease s = s := by
  simp [resetRelease, h]

@[simp] theorem busy_eq_false (s : State) : s.busy = false ↔ s.pend = none := by
  simp [State.busy]

@[simp] theorem busy_eq_true (s : State) : s.busy = true ↔ s.pend ≠ none := by
  simp [State.busy, Option.isSome_iff_ne_none]

end Sys2Proof.Machine
end

