-- ==== Sys2Proof/Laws/Operands.lean ====
section
/-! SUPPORT. What the operand functions answer: reading and writing blocks, the accumulators, the levels. -/

namespace Sys2Proof.Machine

/-! ### Blocks -/

@[simp] theorem word?_eq_some {e : Elem} {v : Word} : e.word? = some v ↔ e = .written v := by
  cases e <;> simp [Elem.word?]

@[simp] theorem word?_eq_none {e : Elem} : e.word? = none ↔ e = .unwritten := by
  cases e <;> simp [Elem.word?]

@[simp] theorem blockOf_getElem (f : Fin 16 → Word) (i : Fin 16) : (blockOf f)[i] = .written (f i) := by
  simp [blockOf]

theorem block_ext {x y : Block} (h : ∀ i : Fin 16, x[i] = y[i]) : x = y :=
  Vector.ext fun i hi => h ⟨i, hi⟩

theorem allWritten_iff {b : Block} : b.allWritten = true ↔ ∀ i : Fin 16, b[i] ≠ .unwritten := by
  rw [Block.allWritten, List.all_eq_true]
  constructor
  · intro h i hi
    have := h b[i] (by simp)
    rw [hi] at this
    cases this
  · intro h e he
    obtain ⟨i, hi, rfl⟩ := List.getElem_of_mem he
    have hi' : i < 16 := by simpa using hi
    have hn := h ⟨i, hi'⟩
    change (b[i].word?).isSome = true
    change b[i] ≠ .unwritten at hn
    cases e : b[i] with
    | unwritten => exact absurd e hn
    | written v => rfl

/-- A block whose elements are all written reads as their signed values. -/
theorem readBlock_of_written {b : Block} {x : Fin 16 → Word} (h : ∀ i : Fin 16, b[i] = .written (x i)) :
    readBlock b = some fun i => (x i).toInt := by
  have hw : b.allWritten = true := allWritten_iff.mpr fun i hi => by rw [h] at hi; cases hi
  rw [readBlock, dif_pos hw]
  congr 1
  funext i
  simp only [word?_eq_some.mpr (h i), Option.get_some]

@[simp] theorem readBlock_blockOf (f : Fin 16 → Word) : readBlock (blockOf f) = some fun i => (f i).toInt :=
  readBlock_of_written (blockOf_getElem f)

/-- A block with an unwritten element does not read. -/
theorem readBlock_of_unwritten {b : Block} (h : ∃ i : Fin 16, b[i] = .unwritten) : readBlock b = none := by
  obtain ⟨i, hi⟩ := h
  exact dif_neg fun hw => allWritten_iff.mp hw i hi

/-- A block either holds 16 words or has an unwritten element. -/
theorem block_cases (b : Block) :
    (∃ x : Fin 16 → Word, ∀ i : Fin 16, b[i] = .written (x i)) ∨ ∃ i : Fin 16, b[i] = .unwritten := by
  by_cases h : ∃ i : Fin 16, b[i] = .unwritten
  · exact .inr h
  · refine .inl ⟨fun i => (b[i].word?).getD 0, fun i => ?_⟩
    cases e : b[i] with
    | unwritten => exact absurd ⟨i, e⟩ h
    | written v =>
      show Elem.written v = .written ((b[i].word?).getD 0)
      rw [e]
      rfl

/-! ### Numbers -/

/-- A value in range survives its narrowing to 32 bits. -/
theorem toInt_low32 {v : Int} (h₁ : -2 ^ 31 ≤ v) (h₂ : v < 2 ^ 31) : (low32 v).toInt = v := by
  rw [low32, BitVec.toInt_ofInt]
  exact Int.bmod_eq_of_le (by omega) (by omega)

@[simp] theorem accumulate_false (old : Acc64) (sum : Int) : accumulate false old sum = low64 sum := by
  simp [accumulate]

theorem accumulate_true (old : Acc64) (sum : Int) : accumulate true old sum = old + low64 sum := by
  simp [accumulate, low64, BitVec.ofInt_add]

theorem nonzeroCount_le (l : Fin 16 → Nat) : nonzeroCount l ≤ 16 := by
  simpa [nonzeroCount] using List.countP_le_length (p := fun i => l i != 0) (l := List.finRange 16)

theorem drawnCount_le (n : Nat) : (drawnCount n).toNat ≤ 16 := by
  rw [drawnCount, BitVec.toNat_ofNat]
  omega

theorem qoff_of_lt (p : Params) {qp : Nat} (h : qp < 52) : qoff p qp = p.qoff[qp] := by
  simp [qoff, h]

theorem qoff_lt {p : Params} (hp : p.wf) {qp : Nat} (h : qp < 52) : qoff p qp < 2 ^ qbits qp := by
  rw [qoff_of_lt p h]
  exact hp ⟨qp, h⟩

end Sys2Proof.Machine
end

