-- ==== Sys2Proof/Laws/Commands.lean ====
section
/-! SUPPORT. What the engine's completion of a command can do, said once. -/

namespace Sys2Proof.Machine

/-- The state t differs from s at most in W, NZCNT, the accumulators and the count of draws. -/
structure OnlyResultsChange (s t : State) : Prop where
  a : t.a = s.a
  b : t.b = s.b
  err : t.err = s.err
  errcode : t.errcode = s.errcode
  ie : t.ie = s.ie
  qp : t.qp = s.qp
  inReset : t.inReset = s.inReset
  params : t.params = s.params
  inputs : t.inputs = s.inputs
  outputs : t.outputs = s.outputs
  nzcnt : t.nzcnt = s.nzcnt ∨ t.nzcnt.toNat ≤ 16

/-- The levels at a legal QP, with the rounding offset of the parameters (41_quant.md R113). -/
theorem levels_of_lt (p : Params) {qp : Nat} (h : qp < 52) (x : Fin 16 → Int) :
    levels p qp x = fun i => ((x i).natAbs * mf p qp i + p.qoff[qp]) / 2 ^ (15 + qp / 6) := by
  funext i
  rw [levels, level, qoff_of_lt p h, qbits]

/-- A level below 2^31 is read back from the word it is written to (R114). -/
theorem natAbs_levelWords {l : Fin 16 → Nat} {i : Fin 16} (h : l i < 2 ^ 31) : ((levelWords l i).toInt.natAbs : Int) = l i := by
  have e : (levelWords l i).toNat = l i := by
    rw [levelWords, BitVec.toNat_ofNat]
    omega
  rw [BitVec.toInt_eq_toNat_of_lt (by omega), e]
  rfl

theorem nzcnt_count_le (l : Fin 16 → Nat) : (BitVec.ofNat 5 (nonzeroCount l)).toNat ≤ 16 := by
  have := nonzeroCount_le l
  rw [BitVec.toNat_ofNat]
  omega

/-- Any change of W, NZCNT, the accumulators and the count of draws, NZCNT staying a count. -/
theorem onlyResultsChange (s : State) (w : Block) (nzcnt : BitVec 5) (sad sse satd : Acc64) (draws : Nat)
    (h : nzcnt = s.nzcnt ∨ nzcnt.toNat ≤ 16) :
    OnlyResultsChange s
      { s with w := w, nzcnt := nzcnt, sad := sad, sse := sse, satd := satd, draws := draws } :=
  ⟨rfl, rfl, rfl, rfl, rfl, rfl, rfl, rfl, rfl, rfl, h⟩

/-- Every command answers a next state: its results, and then its completion (10_state.md R32). -/
theorem exec_completes (i : Instr) (s : State) : ∃ t, exec i s = .next (complete t) ∧ OnlyResultsChange s t := by
  cases i with
  | nop => exact ⟨s, rfl, onlyResultsChange s _ _ _ _ _ _ (.inl rfl)⟩
  | clracc => exact ⟨_, rfl, onlyResultsChange s _ 0 _ _ _ _ (.inr (by decide))⟩
  | resid acc =>
    show ∃ t, execResid acc s = _ ∧ _
    unfold execResid
    split <;> exact ⟨_, rfl, onlyResultsChange s _ _ _ _ _ _ (.inl rfl)⟩
  | fdct =>
    show ∃ t, execFdct s = _ ∧ _
    unfold execFdct
    split <;> exact ⟨_, rfl, onlyResultsChange s _ _ _ _ _ _ (.inl rfl)⟩
  | had =>
    show ∃ t, execHad s = _ ∧ _
    unfold execHad
    split <;> exact ⟨_, rfl, onlyResultsChange s _ _ _ _ _ _ (.inl rfl)⟩
  | quant =>
    show ∃ t, execQuant s = _ ∧ _
    unfold execQuant
    split
    · exact ⟨_, rfl, onlyResultsChange s _ _ _ _ _ _ (.inr (nzcnt_count_le _))⟩
    · exact ⟨_, rfl, onlyResultsChange s _ _ _ _ _ _ (.inr (drawnCount_le _))⟩
  | dequant =>
    show ∃ t, execDequant s = _ ∧ _
    unfold execDequant
    split <;> exact ⟨_, rfl, onlyResultsChange s _ _ _ _ _ _ (.inl rfl)⟩
  | sumabs acc =>
    show ∃ t, execSumabs acc s = _ ∧ _
    unfold execSumabs
    split <;> exact ⟨_, rfl, onlyResultsChange s _ _ _ _ _ _ (.inl rfl)⟩
  | satd acc =>
    show ∃ t, execSatd acc s = _ ∧ _
    unfold execSatd
    split <;> exact ⟨_, rfl, onlyResultsChange s _ _ _ _ _ _ (.inl rfl)⟩
  | satddct acc =>
    show ∃ t, execSatddct acc s = _ ∧ _
    unfold execSatddct
    split
    · exact ⟨_, rfl, onlyResultsChange s _ _ _ _ _ _ (.inr (nzcnt_count_le _))⟩
    · exact ⟨_, rfl, onlyResultsChange s _ _ _ _ _ _ (.inr (drawnCount_le _))⟩

/-! ### Each command on operands that read -/

variable {s : State} {x : Fin 16 → Int}

theorem exec_resid_of_read {y : Fin 16 → Int} (acc : Bool) (ha : readBlock s.a = some x) (hb : readBlock s.b = some y) :
    exec (.resid acc) s = .next (complete { s with
      w := blockOf fun i => low32 (x i - y i)
      sad := accumulate acc s.sad (sumAbs fun i => x i - y i)
      sse := accumulate acc s.sse (sumSquares fun i => x i - y i) }) := by
  simp only [exec, execResid, ha, hb]

theorem exec_fdct_of_read (h : readBlock s.w = some x) :
    exec .fdct s = .next (complete { s with w := blockOf (fdctWords x) }) := by
  simp only [exec, execFdct, h]

theorem exec_had_of_read (h : readBlock s.w = some x) :
    exec .had s = .next (complete { s with w := blockOf (hadWords x) }) := by
  simp only [exec, execHad, h]

theorem exec_quant_of_read (h : readBlock s.w = some x) :
    exec .quant s = .next (complete { s with
      w := blockOf (levelWords (levels s.params s.qp.toNat x))
      nzcnt := BitVec.ofNat 5 (nonzeroCount (levels s.params s.qp.toNat x)) }) := by
  simp only [exec, execQuant, h]

theorem exec_dequant_of_read (h : readBlock s.w = some x) :
    exec .dequant s = .next (complete { s with w := blockOf (dequantWords s.params s.qp.toNat x) }) := by
  simp only [exec, execDequant, h]

theorem exec_sumabs_of_read (acc : Bool) (h : readBlock s.w = some x) :
    exec (.sumabs acc) s = .next (complete { s with satd := accumulate acc s.satd (sumAbs x) }) := by
  simp only [exec, execSumabs, h]

theorem exec_satd_of_read (acc : Bool) (h : readBlock s.w = some x) :
    exec (.satd acc) s = .next (complete { s with
      w := blockOf (hadWords x)
      satd := accumulate acc s.satd (sumAbs fun i => (hadWords x i).toInt) }) := by
  simp only [exec, execSatd, h]

theorem exec_satddct_of_read (acc : Bool) (h : readBlock s.w = some x) :
    exec (.satddct acc) s = .next (complete { s with
      w := blockOf (levelWords (levels s.params s.qp.toNat fun i => (fdctWords x i).toInt))
      nzcnt := BitVec.ofNat 5 (nonzeroCount (levels s.params s.qp.toNat fun i => (fdctWords x i).toInt))
      satd := accumulate acc s.satd
        (sumAbs fun i => (levelWords (levels s.params s.qp.toNat fun j => (fdctWords x j).toInt) i).toInt) }) := by
  simp only [exec, execSatddct, h]

end Sys2Proof.Machine
end

