-- ==== Sys2Proof/Laws/Encoding.lean ====
section
/-! SUPPORT. The fields of a word, and which fields the decoder takes. -/

namespace Sys2Proof

/-- The bits of the word with given fields (30_encoding.md R70). -/
theorem getLsbD_wordOfFields (f : CmdFields) (i : Nat) :
    (wordOfFields f).getLsbD i =
      if i < 4 then f.opc.getLsbD i else if i = 4 then f.acc else f.rsv.getLsbD (i - 5) := by
  show BitVec.getLsbD (w := 27 + 1 + 4) (f.rsv ++ BitVec.ofBool f.acc ++ f.opc) i = _
  rw [BitVec.getLsbD_append, BitVec.getLsbD_append]
  by_cases h4 : i < 4
  · simp [h4]
  · by_cases h5 : i = 4
    · simp [h5]
    · simp [h4, h5, show ¬i - 4 < 1 by omega, show i - 4 - 1 = i - 5 by omega]

@[simp] theorem fieldsOfWord_wordOfFields (f : CmdFields) : fieldsOfWord (wordOfFields f) = f := by
  obtain ⟨opc, acc, rsv⟩ := f
  simp only [fieldsOfWord, CmdFields.mk.injEq]
  refine ⟨BitVec.eq_of_getLsbD_eq fun i hi => ?_, ?_, BitVec.eq_of_getLsbD_eq fun i hi => ?_⟩
  · simp [getLsbD_wordOfFields, hi]
  · simp only [getLsbD_wordOfFields, Nat.lt_irrefl, if_false, if_true]
  · simp [getLsbD_wordOfFields, hi, show ¬5 + i < 4 by omega, show ¬5 + i = 4 by omega]

theorem wordOfFields_fieldsOfWord (w : Word) : wordOfFields (fieldsOfWord w) = w := by
  refine BitVec.eq_of_getLsbD_eq fun i hi => ?_
  rw [getLsbD_wordOfFields]
  by_cases h4 : i < 4
  · simp [fieldsOfWord, h4]
  · by_cases h5 : i = 4
    · simp [fieldsOfWord, h5]
    · simp [fieldsOfWord, h4, h5, show i - 5 < 27 by omega, show 5 + (i - 5) = i by omega]

/-- Two words with the same fields are the same word. -/
theorem word_ext {w w' : Word} (h : fieldsOfWord w = fieldsOfWord w') : w = w' := by
  rw [← wordOfFields_fieldsOfWord w, h, wordOfFields_fieldsOfWord]

theorem opc_toNat (w : Word) : (fieldsOfWord w).opc.toNat = w.toNat % 2 ^ 4 := by
  simp [fieldsOfWord]

theorem acc_eq (w : Word) : (fieldsOfWord w).acc = decide (w.toNat / 2 ^ 4 % 2 = 1) := by
  simp [fieldsOfWord, BitVec.getLsbD, Nat.testBit_eq_decide_div_mod_eq]

theorem rsv_toNat (w : Word) : (fieldsOfWord w).rsv.toNat = w.toNat / 2 ^ 5 := by
  have := w.isLt
  simp only [fieldsOfWord, BitVec.extractLsb'_toNat, Nat.shiftRight_eq_div_pow]
  omega

/-- Every command's fields are well-formed: `Instr` has no ill-formed term (R72 to R74). -/
theorem fields_wellFormed (i : Instr) : i.fields.wellFormed = true := by
  cases i <;> first | rfl | (rename_i acc; cases acc <;> rfl)

end Sys2Proof
end

