-- ==== Sys2Proof/Laws/PerInstr.lean ====
section
/-! SUPPORT. The family `LegalFields`: a command's word has legal fields (30_encoding.md R72 to R74). -/

namespace Sys2Proof.Laws.LegalFields

/-- The fields of the command's word are legal, and the word holds exactly them. -/
def Statement (i : Instr) : Prop := i.fields.wellFormed = true ∧ fieldsOfWord (encode i) = i.fields

theorem of_instr (i : Instr) : Statement i := ⟨fields_wellFormed i, fieldsOfWord_wordOfFields _⟩

theorem nop : Statement .nop := of_instr _
theorem resid (acc : Bool) : Statement (.resid acc) := of_instr _
theorem fdct : Statement .fdct := of_instr _
theorem had : Statement .had := of_instr _
theorem quant : Statement .quant := of_instr _
theorem dequant : Statement .dequant := of_instr _
theorem sumabs (acc : Bool) : Statement (.sumabs acc) := of_instr _
theorem satd (acc : Bool) : Statement (.satd acc) := of_instr _
theorem satddct (acc : Bool) : Statement (.satddct acc) := of_instr _
theorem clracc : Statement .clracc := of_instr _

end Sys2Proof.Laws.LegalFields
end

