-- ==== Sys2Proof/Laws/Window.lean ====
section
/-! SUPPORT. What a host access can do, said once for reads, for writes and for CMD. -/

namespace Sys2Proof.Machine

/-- What a write to CMD can do (60_exceptions.md R161). -/
theorem commandWrite_cases (v : Word) (s : State) :
    (s.pend ≠ none ∧ commandWrite v s = record .busy s) ∨
    (s.pend = none ∧ (∃ r, decode v = .illegal r) ∧ commandWrite v s = reject .illegalCmd s) ∨
    (s.pend = none ∧ (∃ i, decode v = .cmd i ∧ i.usesQp = true ∧ Config.qpMax < s.qp.toNat) ∧
      commandWrite v s = reject .qpRange s) ∨
    (s.pend = none ∧ (∃ i, decode v = .cmd i ∧ (i.usesQp = true → s.qp.toNat ≤ Config.qpMax)) ∧
      commandWrite v s = launch v s) := by
  unfold commandWrite
  by_cases hb : s.busy = true
  · exact .inl ⟨by simpa using hb, by simp [hb]⟩
  · have hp : s.pend = none := by simpa using hb
    refine .inr ?_
    rw [if_neg hb]
    cases hd : decode v with
    | illegal r => exact .inl ⟨hp, ⟨r, rfl⟩, rfl⟩
    | cmd i =>
      refine .inr ?_
      by_cases hq : i.usesQp = true ∧ Config.qpMax < s.qp.toNat
      · exact .inl ⟨hp, ⟨i, rfl, hq⟩, if_pos hq⟩
      · exact .inr ⟨hp, ⟨i, rfl, fun hu => Nat.le_of_not_lt fun hl => hq ⟨hu, hl⟩⟩, if_neg hq⟩

/-- A read answers the host, and beyond that changes at most the count of draws, or records an ACCESS error. -/
theorem hostRead_cases (off : Fin 256) (size : Nat) (s : State) :
    hostRead off size s = respond (.readData 0 Config.busErrSignal) (record .access s) ∨
    (∃ v, hostRead off size s = respond (.readData v false) s) ∨
    hostRead off size s = respond (.readData (drawWord s.draws) false) { s with draws := s.draws + 1 } := by
  unfold hostRead readReg
  split
  · exact .inl rfl
  · split
    · exact .inr (.inl ⟨_, rfl⟩)
    · exact .inr (.inr rfl)

/-- The offset of a register of the window (20_memory.md R52). -/
def Reg.offset : Reg → Nat
  | .id => 0x00
  | .cmd => 0x04
  | .status => 0x08
  | .ctrl => 0x0C
  | .qp => 0x10
  | .nzcnt => 0x14
  | .sadLo => 0x18
  | .sadHi => 0x1C
  | .sseLo => 0x20
  | .sseHi => 0x24
  | .satdLo => 0x28
  | .satdHi => 0x2C
  | .a i => 0x40 + 4 * i.val
  | .b i => 0x80 + 4 * i.val
  | .w i => 0xC0 + 4 * i.val

/-- The register found at an offset is the one the map puts there. -/
theorem offset_of_regAt {off : Fin 256} {r : Reg} (h : regAt off = some r) : off.val = r.offset := by
  have hlt := off.isLt
  unfold regAt at h
  split at h
  · cases h
  · split at h
    · cases h
      simp only [Reg.offset, Fin.ofNat]
      omega
    · split at h
      · cases h
        simp only [Reg.offset, Fin.ofNat]
        omega
      · split at h
        · cases h
          simp only [Reg.offset, Fin.ofNat]
          omega
        · split at h <;> cases h <;> assumption

/-- What a write can do. -/
theorem hostWrite_cases (off : Fin 256) (size : Nat) (v : Word) (s : State) :
    hostWrite off size v s = accessError s ∨
    (off = 0x04 ∧ size = 4 ∧ hostWrite off size v s = acceptWrite (commandWrite v s)) ∨
    (off = 0x08 ∧ size = 4 ∧ hostWrite off size v s = acceptWrite (statusWrite v s)) ∨
    hostWrite off size v s = acceptWrite { s with ie := v.getLsbD 0 } ∨
    (s.pend ≠ none ∧ hostWrite off size v s = acceptWrite (record .busy s)) ∨
    (s.pend = none ∧ ∃ a b w qp, hostWrite off size v s = acceptWrite { s with a := a, b := b, w := w, qp := qp }) := by
  have hq : ∀ t : State, (∃ a b w qp, t = { s with a := a, b := b, w := w, qp := qp }) →
      hostWrite off size v s = unlessInFlight s t →
      (s.pend ≠ none ∧ hostWrite off size v s = acceptWrite (record .busy s)) ∨
      (s.pend = none ∧ ∃ a b w qp, hostWrite off size v s = acceptWrite { s with a := a, b := b, w := w, qp := qp }) := by
    rintro _ ⟨a, b, w, qp, rfl⟩ e
    rw [e, unlessInFlight]
    by_cases hb : s.busy = true
    · exact .inl ⟨by simpa using hb, by rw [if_pos hb]⟩
    · exact .inr ⟨by simpa using hb, a, b, w, qp, by rw [if_neg hb]⟩
  cases ht : target off size with
  | none => exact .inl (by rw [hostWrite, ht])
  | some r =>
    have e : hostWrite off size v s = writeReg r v s := by rw [hostWrite, ht]
    have hs : size = 4 ∧ regAt off = some r := by
      unfold target at ht
      split at ht
      · exact ⟨‹_›, ht⟩
      · cases ht
    cases r with
    | cmd => exact .inr (.inl ⟨Fin.ext (offset_of_regAt hs.2), hs.1, e⟩)
    | status => exact .inr (.inr (.inl ⟨Fin.ext (offset_of_regAt hs.2), hs.1, e⟩))
    | ctrl => exact .inr (.inr (.inr (.inl e)))
    | qp => exact .inr (.inr (.inr (.inr (hq _ ⟨s.a, s.b, s.w, _, rfl⟩ e))))
    | a i => exact .inr (.inr (.inr (.inr (hq _ ⟨_, s.b, s.w, s.qp, rfl⟩ e))))
    | b i => exact .inr (.inr (.inr (.inr (hq _ ⟨s.a, _, s.w, s.qp, rfl⟩ e))))
    | w i => exact .inr (.inr (.inr (.inr (hq _ ⟨s.a, s.b, _, s.qp, rfl⟩ e))))
    | id => exact .inl e
    | nzcnt => exact .inl e
    | sadLo => exact .inl e
    | sadHi => exact .inl e
    | sseLo => exact .inl e
    | sseHi => exact .inl e
    | satdLo => exact .inl e
    | satdHi => exact .inl e

end Sys2Proof.Machine
end

