-- ==== Sys2Proof/Laws/Step.lean ====
section
/-! SUPPORT. What one step can do, said once. -/

namespace Sys2Proof.Machine

/-- What the engine's turn can do. -/
theorem engineTurn_cases (s : State) :
    (s.pend = none ∧ engineTurn s = .next s) ∨
    (∃ w i, s.pend = some w ∧ decode w = .cmd i ∧ engineTurn s = exec i s) ∨
    (∃ w r, s.pend = some w ∧ decode w = .illegal r ∧ engineTurn s = .fault .pendIllegal) := by
  unfold engineTurn commandInFlight
  cases hp : s.pend with
  | none => exact .inl ⟨rfl, rfl⟩
  | some w =>
    cases hd : decode w with
    | cmd i => exact .inr (.inl ⟨w, i, rfl, hd, by simp [hd]⟩)
    | illegal r => exact .inr (.inr ⟨w, r, rfl, hd, by simp [hd]⟩)

/-- The step at each form of the input list. -/
theorem step_cases (s : State) :
    (s.inputs = [] ∧ step s = engineTurn s) ∨
    ∃ e rest, s.inputs = e :: rest ∧
      match e with
      | .engine => step s = engineTurn { s with inputs := rest }
      | .read off size => step s = hostAccess s (hostRead off size { s with inputs := rest })
      | .write off size v => step s = hostAccess s (hostWrite off size v { s with inputs := rest })
      | .resetAssert => step s = .next (resetAssert { s with inputs := rest })
      | .resetRelease => step s = .next (resetRelease { s with inputs := rest }) := by
  unfold step
  cases hi : s.inputs with
  | nil => exact .inl ⟨rfl, rfl⟩
  | cons e rest => exact .inr ⟨e, rest, rfl, by cases e <;> rfl⟩

/-- On any machine, a run of one more step begins with a step. -/
theorem coreRun_succ (m : Host.Core) {k : Nat} {s t u : m.State} (hs : m.step s = .next t) (hr : m.run k t = .next u) :
    m.run (k + 1) s = .next u := by
  rw [Host.Core.run, hs]
  exact hr

/-- A run of one more step begins with a step. -/
theorem run_succ {k : Nat} {s t u : State} (hs : step s = .next t) (hr : core.run k t = .next u) :
    core.run (k + 1) s = .next u :=
  coreRun_succ core hs hr

end Sys2Proof.Machine
end

