-- ==== Sys2Proof/Tests/Slice0.lean ====
section
/-! SUPPORT. The model's own tests: the well-formedness smoke test, the words of the spec's encoding, the vectors of
95_test_vectors.md, and for every obligation with hypotheses a witness that meets them. -/

open Sys2Proof Sys2Proof.Machine

namespace Sys2Proof.Tests

/-! ## Helpers -/

/-- The 16 words of these signed values in raster order, 0 beyond the list's end. -/
def words (l : List Int) : Fin 16 → Word := fun i => BitVec.ofInt 32 (l.getD i.val 0)

/-- The block of these signed values. -/
def blk (l : List Int) : Block := blockOf (words l)

/-- The block `res` of 95_test_vectors.md. -/
def res : List Int := [3, -2, 0, 1, 4, 4, -1, -5, 0, 2, 7, -3, -6, 1, 1, 0]

/-- 16 times the same value. -/
def const (k : Int) : List Int := List.replicate 16 k

/-- Every operand written, W holding `l`. -/
def ready (l : List Int) : State :=
  { State.reset with a := blk [10, 12, 14, 16], b := blk [11, 12, 10, 20], w := blk l }

/-- The same, a command in flight. -/
def busy (c : Word) : State := { ready res with pend := some c }

/-- The same, at this QP. -/
def atQp (q : BitVec 6) (l : List Int) : State := { ready l with qp := q }

/-- These events come next. -/
def on (s : State) (es : List Event) : State := { s with inputs := es }

/-- What the next state shows, if there is one. -/
def see {α : Type} (f : State → α) (o : Host.Outcome State Fault Refusal) : Option α :=
  match o with
  | .next t => some (f t)
  | .fault _ => none
  | .refused _ => none

/-- STATUS after one host write. -/
def statusAfterWrite (s : State) (off : Fin 256) (size : Nat) (v : Word) : Option Nat :=
  see (fun t => (statusWord t).toNat) (step (on s [.write off size v]))

/-! ## Well-formedness: one ill-formed term for each check (30_encoding.md R72 to R74) -/

theorem test_rsv_refused : (CmdFields.mk 7 false 1).rsvOk = false ∧ (CmdFields.mk 7 false 1).wellFormed = false := by
  decide

theorem test_opc_refused : (CmdFields.mk 0xA false 0).opcOk = false ∧ (CmdFields.mk 0xA false 0).wellFormed = false := by
  decide

theorem test_acc_refused : (CmdFields.mk 2 true 0).accOk = false ∧ (CmdFields.mk 2 true 0).wellFormed = false := by
  decide

/-! ## Decoding: the words of R77 bit by bit, RSV then ACC then OPC; the rejected words of 95_test_vectors.md 2.10 -/

theorem test_decode_nop : decode 0b000000000000000000000000000_0_0000#32 = .cmd .nop := by decide
theorem test_decode_resid : decode 0b000000000000000000000000000_0_0001#32 = .cmd (.resid false) := by decide
theorem test_decode_resid_acc : decode 0b000000000000000000000000000_1_0001#32 = .cmd (.resid true) := by decide
theorem test_decode_fdct : decode 0b000000000000000000000000000_0_0010#32 = .cmd .fdct := by decide
theorem test_decode_had : decode 0b000000000000000000000000000_0_0011#32 = .cmd .had := by decide
theorem test_decode_quant : decode 0b000000000000000000000000000_0_0100#32 = .cmd .quant := by decide
theorem test_decode_dequant : decode 0b000000000000000000000000000_0_0101#32 = .cmd .dequant := by decide
theorem test_decode_sumabs : decode 0b000000000000000000000000000_0_0110#32 = .cmd (.sumabs false) := by decide
theorem test_decode_sumabs_acc : decode 0b000000000000000000000000000_1_0110#32 = .cmd (.sumabs true) := by decide
theorem test_decode_satd : decode 0b000000000000000000000000000_0_0111#32 = .cmd (.satd false) := by decide
theorem test_decode_satd_acc : decode 0b000000000000000000000000000_1_0111#32 = .cmd (.satd true) := by decide
theorem test_decode_satddct : decode 0b000000000000000000000000000_0_1000#32 = .cmd (.satddct false) := by decide
theorem test_decode_satddct_acc : decode 0b000000000000000000000000000_1_1000#32 = .cmd (.satddct true) := by decide
theorem test_decode_clracc : decode 0b000000000000000000000000000_0_1001#32 = .cmd .clracc := by decide

theorem test_decode_illegal :
    [0x0A#32, 0x0F#32, 0x12#32, 0x10#32, 0x19#32, 0x20#32, 0x80000007#32].map (fun w => (decode w).instr?) =
      List.replicate 7 none := by
  decide

/-! ## One command each (95_test_vectors.md section 2) -/

/-- 2.9. -/
theorem test_nop : see (fun t => (statusWord t, t.nzcnt)) (exec .nop { ready res with nzcnt := 1 }) = some (2, 1) := by
  decide

/-- 2.5, basic. -/
theorem test_resid :
    see (fun t => (t.w, t.sad.toNat, t.sse.toNat)) (exec (.resid false) (ready res)) = some (blk [-1, 0, 4, -4], 9, 33) := by
  decide

/-- 2.5: SAD counts the exact difference, W holds the wrapped one, SSE wraps on accumulation. -/
theorem test_resid_acc_extreme :
    see (fun t => (t.w, t.sad.toNat, t.sse.toNat)) (exec (.resid true)
        { ready res with a := blk (const 2147483647), b := blk (const (-2147483648)), sse := 0xFFFFFFFFFFFFFFFF }) =
      some (blk (const (-1)), 68719476720, 18446743936270598159) := by
  decide

/-- 2.1, `res`. -/
theorem test_fdct :
    see (fun t => t.w) (exec .fdct (ready res)) =
      some (blk [6, 14, -18, 12, 8, 50, 36, 10, -10, -34, 14, -12, 14, -30, -2, 40]) := by
  decide

/-- 2.1, impulse at i = 15: a corner of C, not symmetric. -/
theorem test_fdct_impulse :
    see (fun t => t.w) (exec .fdct (ready [0, 0, 0, 0, 0, 0, 0, 0, 0, 0, 0, 0, 0, 0, 0, 1])) =
      some (blk [1, -2, 1, -1, -2, 4, -2, 2, 1, -2, 1, -1, -1, 2, -1, 1]) := by
  decide

/-- 2.2, ramp. -/
theorem test_had :
    see (fun t => t.w) (exec .had (ready [0, 1, 2, 3, 4, 5, 6, 7, 8, 9, 10, 11, 12, 13, 14, 15])) =
      some (blk [60, -8, 0, -4, -32, 0, 0, 0, 0, 0, 0, 0, -16, 0, 0, 0]) := by
  decide

/-- 2.2, impulse -3: halved toward zero. -/
theorem test_had_truncates : see (fun t => t.w) (exec .had (ready [-3])) = some (blk (const (-1))) := by decide

/-- 2.3, FDCT(res) at QP 12. -/
theorem test_quant :
    see (fun t => (t.w, t.nzcnt.toNat)) (exec .quant (atQp 12
        [6, 14, -18, 12, 8, 50, 36, 10, -10, -34, 14, -12, 14, -30, -2, 40])) =
      some (blk [0, 1, 2, 1, 0, 2, 2, 0, 1, 2, 1, 1, 1, 1, 0, 1], 12) := by
  decide

/-- 2.3, extremes at QP 0. -/
theorem test_quant_extremes :
    see (fun t => (t.w, t.nzcnt.toNat)) (exec .quant (atQp 0 [-2147483648, 2147483647])) =
      some (blk [858980352, 528613376], 2) := by
  decide

/-- 2.4, mixed signs at QP 12. -/
theorem test_dequant :
    see (fun t => t.w) (exec .dequant (atQp 12 [7, -3, 0, 0, 2])) = some (blk [280, -156, 0, 0, 104]) := by
  decide

/-- 2.4, wrap at QP 51. -/
theorem test_dequant_wraps :
    see (fun t => t.w) (exec .dequant (atQp 51 [2147483647])) = some (blk [-3584]) := by
  decide

/-- 2.6, most negative. -/
theorem test_sumabs :
    see (fun t => (t.w, t.satd.toNat)) (exec (.sumabs false) { ready (const (-2147483648)) with satd := 5 }) =
      some (blk (const (-2147483648)), 34359738368) := by
  decide

/-- 2.6, accumulation wraps. -/
theorem test_sumabs_acc :
    see (fun t => t.satd.toNat) (exec (.sumabs true) { ready res with satd := 0xFFFFFFFFFFFFFFF6 }) = some 30 := by
  decide

/-- 2.7, `res`. -/
theorem test_satd :
    see (fun t => (t.w, t.satd.toNat)) (exec (.satd false) (ready res)) =
      some (blk [3, 3, -9, 5, 1, 11, 11, 3, -5, -9, 7, -7, 5, -5, 3, 7], 94) := by
  decide

/-- 2.7, `res`, accumulate. -/
theorem test_satd_acc :
    see (fun t => t.satd.toNat) (exec (.satd true) { ready res with satd := 40 }) = some 134 := by
  decide

/-- 2.8, `res` at QP 0. -/
theorem test_satddct :
    see (fun t => (t.w, t.nzcnt.toNat, t.satd.toNat)) (exec (.satddct false) (atQp 0 res)) =
      some (blk [2, 3, 7, 3, 2, 8, 9, 1, 4, 8, 5, 3, 3, 5, 0, 6], 15, 69) := by
  decide

/-- 2.8, golden, accumulate (QP 28 from reset). -/
theorem test_satddct_acc :
    see (fun t => (t.w, t.nzcnt.toNat, t.satd.toNat)) (exec (.satddct true) { ready (const 5) with satd := 7 }) =
      some (blk [1], 1, 8) := by
  decide

/-- 2.9. -/
theorem test_clracc :
    see (fun t => (t.w, t.sad, t.sse, t.satd, t.nzcnt))
        (exec .clracc { ready res with sad := 9, sse := 33, satd := 40, nzcnt := 1 }) =
      some (blk res, 0, 0, 0, 0) := by
  decide

/-! ## Host accesses (95_test_vectors.md 2.10) -/

theorem test_cmd_rejected :
    [0x0A#32, 0x0F#32, 0x12#32, 0x10#32, 0x19#32, 0x20#32, 0x80000007#32].map (statusAfterWrite State.reset 0x04 4) =
      List.replicate 7 (some 0x16) := by
  decide

theorem test_cmd_qp_range :
    statusAfterWrite (atQp 52 res) 0x04 4 0x4 = some 0x26 ∧ statusAfterWrite (atQp 60 res) 0x04 4 0xA = some 0x16 ∧
    statusAfterWrite (atQp 60 res) 0x04 4 0x3 = some 0x01 := by
  decide

theorem test_write_while_busy :
    statusAfterWrite (busy 0x3) 0x04 4 0x3 = some 0x35 ∧ statusAfterWrite (busy 0x3) 0x04 4 0xA = some 0x35 ∧
    statusAfterWrite (busy 0x3) 0xC0 4 7 = some 0x35 ∧ statusAfterWrite (busy 0x3) 0x10 4 5 = some 0x35 ∧
    statusAfterWrite (busy 0x3) 0x0C 4 1 = some 0x01 := by
  decide

theorem test_busy_write_dropped :
    see (fun t => (t.w, t.qp)) (step (on (busy 0x3) [.write 0xC0 4 7])) = some (blk res, 28) := by
  decide

theorem test_bad_access :
    statusAfterWrite State.reset 0x10 2 5 = some 0x44 ∧ statusAfterWrite State.reset 0x42 4 5 = some 0x44 ∧
    statusAfterWrite State.reset 0x00 4 0x1234 = some 0x44 ∧ statusAfterWrite State.reset 0x28 4 0 = some 0x44 ∧
    see (fun t => (statusWord t).toNat) (step (on State.reset [.read 0x30 4])) = some 0x44 ∧
    see (fun t => (statusWord t).toNat) (step (on State.reset [.read 0x04 4])) = some 0x00 := by
  decide

theorem test_status_write :
    statusAfterWrite { State.reset with done := true, err := true, errcode := .access } 0x08 4 0x4 = some 0x02 ∧
    statusAfterWrite { State.reset with done := true } 0x08 4 0x2 = some 0x00 ∧
    statusAfterWrite { busy 0x3 with err := true, errcode := .busy } 0x08 4 0xFFFFFFFF = some 0x01 ∧
    statusAfterWrite { State.reset with err := true, errcode := .access } 0x04 4 0xA = some 0x46 := by
  decide

/-- Section 3: ID and QP after reset. -/
theorem test_reset_reads :
    see (fun t => t.outputs) (step (on State.reset [.read 0x00 4])) = some [.readData 0x54514401 false] ∧
    see (fun t => t.outputs) (step (on State.reset [.read 0x10 4])) = some [.readData 0x1C false] := by
  decide

/-- Element 15 of each block is at the block's base plus 60. -/
theorem test_last_elements :
    see (fun t => t.a[15]) (step (on (ready res) [.write 0x7C 4 9])) = some (.written 9) ∧
    see (fun t => t.b[15]) (step (on (ready res) [.write 0xBC 4 9])) = some (.written 9) ∧
    see (fun t => t.w[15]) (step (on (ready res) [.write 0xFC 4 9])) = some (.written 9) := by
  decide

/-- Program 3: IRQ after completion, and after the clearing write. -/
theorem test_irq :
    see irq (step { busy 0x8 with ie := true }) = some true ∧
    see irq (step (on { ready res with ie := true, done := true } [.write 0x08 4 0x6])) = some false := by
  decide

/-- The host's check: the word placed by withFetchWord runs as the first command after reset. -/
theorem test_fetch_word : see (fun t => (statusWord t).toNat) (step (State.reset.withFetchWord 32 0x9)) = some 2 := by
  decide

/-! ## Witnesses: concrete states and operands that meet the hypotheses of each obligation

Each theorem names the obligation after `witness_`; a theorem of several parts has one for each clause, at boundary values. -/

theorem witness_FourteenWordsAreLegal :
    ∃ w : Word, w ∉ [0x00#32, 0x01#32, 0x11#32, 0x02#32, 0x03#32, 0x04#32, 0x05#32, 0x06#32, 0x16#32, 0x07#32, 0x17#32,
      0x08#32, 0x18#32, 0x09#32] :=
  ⟨0x0A, by decide⟩

theorem witness_DecodeChecksRsvOpcAndAcc : ∃ w i, decode w = .cmd i := ⟨0x18, .satddct true, by decide⟩

theorem witness_DecodeAndEncodeAgree : ∃ w i, decode w = .cmd i := ⟨0x09, .clracc, by decide⟩

theorem witness_EngineTurnRunsTheCommandInFlight :
    (∃ (s : State) (w : Word) (i : Instr), s.pend = some w ∧ decode w = .cmd i ∧ s.inputs = []) ∧
    ∃ (s : State) (w : Word) (i : Instr) (rest : List Event), s.pend = some w ∧ decode w = .cmd i ∧ s.inputs = .engine :: rest :=
  ⟨⟨busy 0x3, 0x3, .had, by decide⟩, on (busy 0x3) [.engine, .engine], 0x3, .had, [.engine], by decide⟩

/-- Two states that differ in what no command reads; every command completes from both. -/
theorem witness_CommandsReadOnlyTheirListedState :
    ∃ s t : State, s ≠ t ∧ s.params = t.params ∧ s.draws = t.draws ∧ s.a = t.a ∧ s.b = t.b ∧ s.w = t.w ∧ s.qp = t.qp ∧
      s.sad = t.sad ∧ s.sse = t.sse ∧ s.satd = t.satd ∧
      ∀ i, (∃ s', exec i s = .next s') ∧ ∃ t', exec i t = .next t' :=
  ⟨ready res, { ready res with nzcnt := 5 }, by decide, rfl, rfl, rfl, rfl, rfl, rfl, rfl, rfl, rfl, fun i =>
    ⟨(exec_completes i _).elim fun _ h => ⟨_, h.1⟩, (exec_completes i _).elim fun _ h => ⟨_, h.1⟩⟩⟩

/-- `CommandWriteOutcome`, which every command's result statement has: for each OPC a word that it launches (bit 4 clear)
and one that is illegal, with a command in flight and without, at QP 51 and at QP 52. -/
theorem witness_CommandWriteOutcome :
    (∀ opc ∈ [0x0, 0x1, 0x2, 0x3, 0x4, 0x5, 0x6, 0x7, 0x8, 0x9],
      (∃ v : Word, v.toNat % 2 ^ 4 = opc ∧ ∃ i, decode v = .cmd i) ∧
      ∃ v : Word, v.toNat % 2 ^ 4 = opc ∧ ∀ i, decode v ≠ .cmd i) ∧
    ∀ v : Word, (∃ s : State, s.inReset = false ∧ s.pend ≠ none ∧ s.inputs = [.write 0x04 4 v]) ∧
      (∃ s : State, s.inReset = false ∧ s.pend = none ∧ s.qp = 51 ∧ s.inputs = [.write 0x04 4 v]) ∧
      ∃ s : State, s.inReset = false ∧ s.pend = none ∧ s.qp = 52 ∧ s.inputs = [.write 0x04 4 v] := by
  refine ⟨?_, fun v => ⟨⟨on (busy 0x3) [.write 0x04 4 v], rfl, nofun, rfl⟩,
    ⟨on (atQp 51 res) [.write 0x04 4 v], rfl, rfl, rfl, rfl⟩, on (atQp 52 res) [.write 0x04 4 v], rfl, rfl, rfl, rfl⟩⟩
  have bad : ∀ v : Word, (decode v).instr? = none → ∀ i, decode v ≠ .cmd i := by
    intro v h i e
    rw [e] at h
    cases h
  have words : ∀ opc ∈ [0x0, 0x1, 0x2, 0x3, 0x4, 0x5, 0x6, 0x7, 0x8, 0x9],
      (BitVec.ofNat 32 opc).toNat % 2 ^ 4 = opc ∧ (∃ i, (decode (BitVec.ofNat 32 opc)) = .cmd i) ∧
      (BitVec.ofNat 32 (opc + 0x20)).toNat % 2 ^ 4 = opc ∧ (decode (BitVec.ofNat 32 (opc + 0x20))).instr? = none := by
    intro opc h
    simp only [List.mem_cons, List.not_mem_nil, or_false] at h
    rcases h with rfl | rfl | rfl | rfl | rfl | rfl | rfl | rfl | rfl | rfl <;>
      exact ⟨by decide, ⟨_, rfl⟩, by decide, by decide⟩
  intro opc h
  obtain ⟨h₁, h₂, h₃, h₄⟩ := words opc h
  exact ⟨⟨_, h₁, h₂⟩, _, h₃, bad _ h₄⟩

theorem witness_ClraccClearsTheFourResults : ∃ s t, exec .clracc s = .next t := ⟨ready res, _, rfl⟩

theorem witness_ResidWritesDifferenceSadAndSse :
    ∃ (s : State) (x y : Fin 16 → Word), (∀ i : Fin 16, s.a[i] = .written (x i)) ∧ ∀ i : Fin 16, s.b[i] = .written (y i) :=
  ⟨ready res, words [10, 12, 14, 16], words [11, 12, 10, 20], blockOf_getElem _, blockOf_getElem _⟩

theorem witness_FdctWritesTheForwardTransform :
    ∃ (s : State) (x : Fin 16 → Word), ∀ i : Fin 16, s.w[i] = .written (x i) :=
  ⟨ready (const 2147483647), words (const 2147483647), blockOf_getElem _⟩

theorem witness_HadWritesTheHalvedHadamard :
    ∃ (s : State) (x : Fin 16 → Word), ∀ i : Fin 16, s.w[i] = .written (x i) :=
  ⟨ready [-3], words [-3], blockOf_getElem _⟩

theorem witness_QuantWritesLevelsAndTheirCount :
    ∃ (s : State) (x : Fin 16 → Word), s.qp.toNat < 52 ∧ ∀ i : Fin 16, s.w[i] = .written (x i) :=
  ⟨atQp 51 res, words res, by decide, blockOf_getElem _⟩

theorem witness_DequantWritesRescaledLevels :
    ∃ (s : State) (x : Fin 16 → Word), s.qp.toNat < 52 ∧ ∀ i : Fin 16, s.w[i] = .written (x i) :=
  ⟨atQp 51 res, words res, by decide, blockOf_getElem _⟩

theorem witness_SumabsAddsAbsoluteValues :
    ∃ (s : State) (x : Fin 16 → Word), ∀ i : Fin 16, s.w[i] = .written (x i) :=
  ⟨ready (const (-2147483648)), words (const (-2147483648)), blockOf_getElem _⟩

theorem witness_SatdSumsTheHalvedHadamard :
    ∃ (s : State) (x : Fin 16 → Word), ∀ i : Fin 16, s.w[i] = .written (x i) :=
  ⟨ready res, words res, blockOf_getElem _⟩


theorem witness_AccAddsToTheOldAccumulator :
    (∃ (s t u : State) (x y : Fin 16 → Word), (∀ i : Fin 16, s.a[i] = .written (x i)) ∧
      (∀ i : Fin 16, s.b[i] = .written (y i)) ∧ exec (.resid false) s = .next t ∧ exec (.resid true) s = .next u) ∧
    ∀ i ∈ [Instr.sumabs, .satd, .satddct], ∃ (s t u : State) (x : Fin 16 → Word),
      (∀ j : Fin 16, s.w[j] = .written (x j)) ∧ exec (i false) s = .next t ∧ exec (i true) s = .next u := by
  have h : ∀ i, ∃ t, exec i (ready res) = .next t := fun i => (exec_completes i _).elim fun _ h => ⟨_, h.1⟩
  refine ⟨?_, fun i _ => ?_⟩
  · obtain ⟨t, ht⟩ := h (.resid false)
    obtain ⟨u, hu⟩ := h (.resid true)
    exact ⟨ready res, t, u, words [10, 12, 14, 16], words [11, 12, 10, 20], blockOf_getElem _, blockOf_getElem _, ht, hu⟩
  · obtain ⟨t, ht⟩ := h (i false)
    obtain ⟨u, hu⟩ := h (i true)
    exact ⟨ready res, t, u, words res, blockOf_getElem _, ht, hu⟩

/-- After reset every element is unwritten; and one unwritten element is enough. -/
theorem witness_UnwrittenOperandsGiveUnspecifiedResults :
    (∃ i : Fin 16, State.reset.a[i] = .unwritten ∨ State.reset.b[i] = .unwritten) ∧
    (∃ i : Fin 16, ({ ready res with b := (blk []).set 15 .unwritten } : State).b[i] = .unwritten) ∧
    ∃ i : Fin 16, State.reset.w[i] = .unwritten :=
  ⟨⟨0, by decide⟩, ⟨15, by decide⟩, ⟨0, by decide⟩⟩

theorem witness_UnwrittenOperandLevelsStayInRange :
    ∃ s : State, (∃ i : Fin 16, s.w[i] = .unwritten) ∧ s.params.mft = Params.default.mft :=
  ⟨State.reset, ⟨15, by decide⟩, rfl⟩

theorem witness_TransformsOfZeroConstantAndSum :
    (∀ k ∈ [(-2147483648 : Int), 0, 2147483647],
      (∀ i : Fin 16, (ready (const k)).w[i] = .written (BitVec.ofInt 32 k)) ∧ -2 ^ 31 ≤ k ∧ k < 2 ^ 31) ∧
    ∃ (s s' s'' t t' t'' : State) (x y : Fin 16 → Word) (p q : Word), (∀ i : Fin 16, s.w[i] = .written (x i)) ∧
      (∀ i : Fin 16, s'.w[i] = .written (y i)) ∧ (∀ i : Fin 16, s''.w[i] = .written (x i + y i)) ∧
      exec .fdct s = .next t ∧ exec .fdct s' = .next t' ∧ exec .fdct s'' = .next t'' ∧
      t.w[(15 : Fin 16)] = .written p ∧ t'.w[(15 : Fin 16)] = .written q :=
  ⟨by decide,
   ready res, ready (const 2147483647), { ready [] with w := blockOf fun i => words res i + words (const 2147483647) i },
    _, _, _, words res, words (const 2147483647), 40, 0,
    blockOf_getElem _, blockOf_getElem _, blockOf_getElem _,
    exec_fdct_of_read (readBlock_blockOf _), exec_fdct_of_read (readBlock_blockOf _),
    exec_fdct_of_read (readBlock_blockOf _), by decide, by decide⟩

/-- At the bound, an even and an odd element sum. -/
theorem witness_HadTwiceIsFourfoldIffSumEven :
    ∃ x y : Fin 16 → Word, (∀ i : Fin 16, (ready (const 33554431)).w[i] = .written (x i)) ∧
      (∀ i, (x i).toInt.natAbs ≤ 33554431) ∧ (sum16 fun i => (x i).toInt) % 2 = 0 ∧
      (∀ i : Fin 16, (ready [-33554431]).w[i] = .written (y i)) ∧ (∀ i, (y i).toInt.natAbs ≤ 33554431) ∧
      (sum16 fun i => (y i).toInt) % 2 ≠ 0 :=
  ⟨words (const 33554431), words [-33554431], blockOf_getElem _, by decide, by decide, blockOf_getElem _, by decide,
    by decide⟩

theorem witness_TransformRangesWithoutWrap :
    ∀ m ∈ [255, 59652323, 268435455], ∃ x : Fin 16 → Word,
      (∀ i : Fin 16, (ready (const (m : Nat))).w[i] = .written (x i)) ∧ ∀ i, (x i).toInt.natAbs ≤ m := by
  intro m hm
  refine ⟨words (const m), blockOf_getElem _, ?_⟩
  simp only [List.mem_cons, List.not_mem_nil, or_false] at hm
  rcases hm with rfl | rfl | rfl <;> decide

theorem default_wf : Params.default.wf := by decide

theorem witness_SatddctTransformsQuantizesAndSums :
    ∃ (s : State) (x : Fin 16 → Word), s.qp.toNat < 52 ∧ (∀ i : Fin 16, s.w[i] = .written (x i)) ∧
      s.params.mft = Params.default.mft ∧ s.params.wf ∧
      ∀ i, levels s.params s.qp.toNat (fun j => (fdctWords (fun k => (x k).toInt) j).toInt) i < 2 ^ 31 :=
  ⟨atQp 51 res, words res, by decide, blockOf_getElem _, rfl, default_wf, by decide⟩

theorem witness_QuantLevelsAreBounded :
    ∃ (s : State) (x : Fin 16 → Word), s.qp.toNat < 52 ∧ (∀ i : Fin 16, s.w[i] = .written (x i)) ∧
      s.params.mft = Params.default.mft ∧ s.params.wf :=
  ⟨atQp 51 (const (-2147483648)), words (const (-2147483648)), by decide, blockOf_getElem _, rfl, default_wf⟩

theorem witness_QuantIsMonotoneInMagnitude :
    ∃ (s s' t t' : State) (x y : Fin 16 → Word) (p q : Word), s.qp = s'.qp ∧ s.qp.toNat < 52 ∧ s.params = s'.params ∧
      s.params.mft = Params.default.mft ∧ s.params.wf ∧ (∀ i : Fin 16, s.w[i] = .written (x i)) ∧
      (∀ i : Fin 16, s'.w[i] = .written (y i)) ∧ exec .quant s = .next t ∧ exec .quant s' = .next t' ∧
      t.w[(0 : Fin 16)] = .written p ∧ t'.w[(0 : Fin 16)] = .written q ∧ (x 0).toInt.natAbs = (y 0).toInt.natAbs :=
  ⟨atQp 28 [80], atQp 28 [-80], _, _, words [80], words [-80], 1, 1, rfl, by decide, rfl, rfl, default_wf,
    blockOf_getElem _, blockOf_getElem _, exec_quant_of_read (readBlock_blockOf _),
    exec_quant_of_read (readBlock_blockOf _), by decide, by decide, by decide⟩

theorem witness_ResidSumsAndSymmetry :
    ∃ (s t u : State) (x y : Fin 16 → Word), (∀ i : Fin 16, s.a[i] = .written (x i)) ∧
      (∀ i : Fin 16, s.b[i] = .written (y i)) ∧ exec (.resid false) s = .next t ∧
      exec (.resid false) { s with a := s.b, b := s.a } = .next u ∧
      (sum16 fun i => ((x i).toInt - (y i).toInt) * ((x i).toInt - (y i).toInt)) < 2 ^ 64 := by
  refine ⟨ready res, _, _, words [10, 12, 14, 16], words [11, 12, 10, 20], blockOf_getElem _, blockOf_getElem _,
    exec_resid_of_read false (readBlock_blockOf _) (readBlock_blockOf _),
    exec_resid_of_read false (readBlock_blockOf _) (readBlock_blockOf _), by decide⟩

theorem witness_SatdIsHadThenSumabs : ∃ s : State, ∀ i : Fin 16, s.w[i] ≠ .unwritten := ⟨ready res, by decide⟩

theorem witness_SatddctIsFdctQuantThenSumabs :
    ∃ s : State, ∀ i : Fin 16, s.w[i] ≠ .unwritten :=
  ⟨atQp 51 res, by decide⟩

/-- Elements 10, 15 and 14: one of each class. -/
theorem witness_TablesFollowPositionClasses :
    ((10 : Fin 16).val / 4 % 2 = 0 ∧ (10 : Fin 16).val % 4 % 2 = 0) ∧
    ((15 : Fin 16).val / 4 % 2 = 1 ∧ (15 : Fin 16).val % 4 % 2 = 1) ∧
    (14 : Fin 16).val / 4 % 2 ≠ (14 : Fin 16).val % 4 % 2 := by
  decide

/-- A 16-bit write; a busy one; an illegal word; QP 52, and the commands accepted at QP 51 and at QP 63. -/
theorem witness_CommandWriteRejectsOrLaunches :
    (∃ (s : State) (v : Word) (rest : List Event), s.inReset = false ∧ s.inputs = .write 0x04 2 v :: rest) ∧
    (∃ (s : State) (v : Word) (rest : List Event), s.inReset = false ∧ s.inputs = .write 0x04 4 v :: rest ∧
      s.pend ≠ none) ∧
    (∃ (s : State) (v : Word) (rest : List Event), s.inReset = false ∧ s.inputs = .write 0x04 4 v :: rest ∧
      s.pend = none ∧ ∀ i, decode v ≠ .cmd i) ∧
    (∃ (s : State) (v : Word) (rest : List Event) (i : Instr), s.inReset = false ∧ s.inputs = .write 0x04 4 v :: rest ∧
      s.pend = none ∧ decode v = .cmd i ∧ i.opcode ∈ [0x4, 0x5, 0x8] ∧ 51 < s.qp.toNat) ∧
    (∃ (s : State) (v : Word) (rest : List Event) (i : Instr), s.inReset = false ∧ s.inputs = .write 0x04 4 v :: rest ∧
      s.pend = none ∧ decode v = .cmd i ∧ s.qp.toNat ≤ 51 ∧ i.opcode ∈ [0x4, 0x5, 0x8]) ∧
    ∃ (s : State) (v : Word) (rest : List Event) (i : Instr), s.inReset = false ∧ s.inputs = .write 0x04 4 v :: rest ∧
      s.pend = none ∧ decode v = .cmd i ∧ i.opcode ∉ [0x4, 0x5, 0x8] ∧ 51 < s.qp.toNat :=
  ⟨⟨on (ready res) [.write 0x04 2 0x4], 0x4, [], by decide⟩,
   ⟨on (busy 0x3) [.write 0x04 4 0x3], 0x3, [], by decide⟩,
   ⟨on (ready res) [.write 0x04 4 0xA], 0xA, [], by decide, by decide, by decide, fun i h => by
      have e : decode 0xA = .illegal .opcReserved := by decide
      rw [e] at h
      cases h⟩,
   ⟨on (atQp 52 res) [.write 0x04 4 0x5], 0x5, [], .dequant, by decide⟩,
   ⟨on (atQp 51 res) [.write 0x04 4 0x4], 0x4, [], .quant, by decide⟩,
   ⟨on (atQp 63 res) [.write 0x04 4 0x3], 0x3, [], .had, by decide⟩⟩

/-- The accesses that are bad, the read-only offsets, and the writes that a command in flight drops. -/
theorem witness_BadAccessesAndBusyWritesOnlyRecord :
    (∃ s t : State, s.inReset = false ∧ t.inReset = false ∧ s.inputs = [.read 0x3C 4] ∧ t.inputs = [.write 0x40 8 5]) ∧
    (∀ c ∈ [((0x10 : Fin 256), 2), (0x40, 8), (0x42, 4), (0xFF, 4), (0x30, 4), (0x3C, 4)],
      c.2 ≠ 4 ∨ c.1.val % 4 ≠ 0 ∨ (0x30 ≤ c.1.val ∧ c.1.val ≤ 0x3C)) ∧
    (∃ s : State, s.inReset = false ∧ s.inputs = [.write 0x2C 4 5]) ∧
    (∀ n ∈ [0x10, 0x40, 0xFC], n < 256 ∧ n % 4 = 0 ∧ (n = 0x10 ∨ 0x40 ≤ n)) ∧
    ∀ off : Fin 256, ∃ s : State, s.inReset = false ∧ s.pend ≠ none ∧ s.inputs = [.write off 4 5] :=
  ⟨⟨on (ready res) [.read 0x3C 4], on (ready res) [.write 0x40 8 5], rfl, rfl, rfl, rfl⟩, by decide,
   ⟨on (ready res) [.write 0x2C 4 5], rfl, rfl⟩, by decide, fun off => ⟨on (busy 0x3) [.write off 4 5], rfl, nofun, rfl⟩⟩

/-- Each number of the list is an offset that the statement names. -/
theorem witness_GoodWritesStoreTheirRegister :
    (∀ off : Fin 256, ∃ s : State, s.inReset = false ∧ s.pend = none ∧ s.inputs = [.write off 4 5]) ∧
    ∀ n ∈ [0x08, 0x0C, 0x10, 0x40, 0x7C, 0x80, 0xBC, 0xC0, 0xFC], n < 256 ∧
      (n ∈ [0x08, 0x0C, 0x10] ∨ ∃ i ∈ [(0 : Fin 16), 15], n = 0x40 + 4 * i.val ∨ n = 0x80 + 4 * i.val ∨
        n = 0xC0 + 4 * i.val) :=
  ⟨fun off => ⟨on (ready res) [.write off 4 5], rfl, rfl, rfl⟩, by decide⟩

theorem witness_ReadsWhileBusy :
    (∀ off : Fin 256, ∃ s : State, s.inReset = false ∧ s.pend ≠ none ∧ s.inputs = [.read off 4]) ∧
    ∀ n ∈ [0x00, 0x04, 0x08, 0x0C, 0x10, 0x14, 0x2C, 0x40, 0xFC], n < 256 ∧ n % 4 = 0 :=
  ⟨fun off => ⟨on (busy 0x3) [.read off 4], rfl, nofun, rfl⟩, by decide⟩

/-- Any offset, and an element of each block both written and unwritten. -/
theorem witness_ReadsReturnTheRegisterMap :
    (∀ off : Fin 256, ∃ s : State, s.inReset = false ∧ s.pend = none ∧ s.inputs = [.read off 4]) ∧
    (∃ v, (ready res).a[(0 : Fin 16)] = .written v) ∧ (∃ v, (ready res).b[(15 : Fin 16)] = .written v) ∧
    (∃ v, (ready res).w[(15 : Fin 16)] = .written v) ∧ State.reset.a[(15 : Fin 16)] = .unwritten ∧
    State.reset.b[(0 : Fin 16)] = .unwritten ∧ State.reset.w[(0 : Fin 16)] = .unwritten :=
  ⟨fun off => ⟨on (ready res) [.read off 4], rfl, rfl, rfl⟩, ⟨10, by decide⟩, ⟨0, by decide⟩, ⟨0, by decide⟩, by decide,
    by decide, by decide⟩

theorem witness_StatusWordLayout : ∀ c : ErrCode, ∃ s : State, s.errcode = c := fun c => ⟨{ ready res with errcode := c }, rfl⟩

theorem witness_CtrlHoldsTheInterruptEnable :
    ∃ s t : State, s.inReset = false ∧ t.inReset = false ∧ (∃ v rest, s.inputs = .write 0x0C 4 v :: rest) ∧
      (∃ rest, t.inputs = .read 0x0C 4 :: rest) ∧ ∃ i u, exec i s = .next u :=
  ⟨on (busy 0x3) [.write 0x0C 4 1], on (ready res) [.read 0x0C 4], rfl, rfl, ⟨1, [], rfl⟩, ⟨[], rfl⟩, .nop, _, rfl⟩

theorem witness_QpIsCheckedOnlyAtACommand :
    (∃ (s : State) (v : Word) (rest : List Event), s.inReset = false ∧ s.inputs = .write 0x10 4 v :: rest ∧ s.pend = none) ∧
    (∃ (s : State) (v : Word) (rest : List Event), s.inReset = false ∧ s.inputs = .write 0x10 4 v :: rest ∧ s.pend ≠ none) ∧
    (∃ (s : State) (rest : List Event), s.inReset = false ∧ s.inputs = .read 0x10 4 :: rest) ∧
    ∃ (s : State) (v : Word) (rest : List Event) (i : Instr), s.inReset = false ∧ s.inputs = .write 0x04 4 v :: rest ∧
      s.pend = none ∧ 51 < s.qp.toNat ∧ decode v = .cmd i ∧ i.opcode ∈ [0x4, 0x5, 0x8] :=
  ⟨⟨on (ready res) [.write 0x10 4 63], 63, [], by decide⟩, ⟨on (busy 0x3) [.write 0x10 4 5], 5, [], by decide⟩,
   ⟨on (busy 0x3) [.read 0x10 4], [], by decide⟩,
   ⟨on (atQp 52 res) [.write 0x04 4 0x18], 0x18, [], .satddct true, by decide⟩⟩

theorem witness_WindowIs256BytesAtItsBase : ∃ addr : Nat, addr < Config.tqdBase ∨ Config.tqdBase + 256 ≤ addr :=
  ⟨Config.tqdBase + 256, .inr (Nat.le_refl _)⟩

/-- A launch, a completion, and a reset that abandons the command in flight. -/
theorem witness_BusyChangesOnlyByLaunchCompletionOrReset :
    (∃ s t : State, step s = .next t ∧ s.pend = none ∧ t.pend ≠ none) ∧
    (∃ s t : State, step s = .next t ∧ s.pend ≠ none ∧ t.pend = none ∧ t.inReset = false) ∧
    ∃ s t : State, step s = .next t ∧ s.pend ≠ none ∧ t.pend = none ∧ t.inReset = true :=
  ⟨⟨on (ready res) [.write 0x04 4 0x0], _, rfl, by decide, by decide⟩, ⟨busy 0x0, _, rfl, by decide, by decide, by decide⟩,
   ⟨on (busy 0x0) [.resetAssert], _, rfl, by decide, by decide, by decide⟩⟩

/-- A launch, a completion, a rejection, a clearing write, and the release of reset. -/
theorem witness_DoneChangesOnlyAtTheListedEvents :
    (∃ s t : State, step s = .next t ∧ t.done ≠ s.done ∧ t.pend ≠ none) ∧
    (∃ s t : State, step s = .next t ∧ t.done ≠ s.done ∧ s.pend ≠ none) ∧
    (∃ s t : State, step s = .next t ∧ t.done ≠ s.done ∧ t.errcode = .illegalCmd) ∧
    (∃ s t : State, step s = .next t ∧ t.done ≠ s.done ∧ s.done = true ∧ t.pend = none ∧ s.inReset = false) ∧
    ∃ s t : State, step s = .next t ∧ t.done ≠ s.done ∧ s.inReset = true :=
  ⟨⟨on { ready res with done := true } [.write 0x04 4 0x0], _, rfl, by decide, by decide⟩,
   ⟨busy 0x0, _, rfl, by decide, by decide⟩,
   ⟨on (ready res) [.write 0x04 4 0xA], _, rfl, by decide, by decide⟩,
   ⟨on { ready res with done := true } [.write 0x08 4 2], _, rfl, by decide, by decide, by decide, by decide⟩,
   ⟨on { ready res with done := true, inReset := true } [.resetRelease], _, rfl, by decide, by decide⟩⟩

/-- A second error, a clearing write, and the release of reset. -/
theorem witness_FirstErrorIsKeptUntilCleared :
    (∃ s t : State, step s = .next t ∧ s.err = true ∧ t.errcode = .access) ∧
    (∃ s t : State, step s = .next t ∧ s.err = true ∧ t.err = false ∧ s.inReset = false) ∧
    ∃ s t : State, step s = .next t ∧ s.err = true ∧ t.err = false ∧ s.inReset = true :=
  ⟨⟨on { busy 0x0 with err := true, errcode := .access } [.write 0x04 4 0x0], _, rfl, by decide, by decide⟩,
   ⟨on { ready res with err := true, errcode := .access } [.write 0x08 4 4], _, rfl, by decide, by decide, by decide⟩,
   ⟨on { ready res with err := true, errcode := .access, inReset := true } [.resetRelease], _, rfl, by decide, by decide,
    by decide⟩⟩

theorem witness_IrqFollowsDoneAndErr :
    (∃ (i : Instr) (s t : State), exec i s = .next t) ∧
    (∃ (s : State) (v : Word) (rest : List Event), s.inReset = false ∧ s.inputs = .write 0x04 4 v :: rest ∧
      s.pend ≠ none) ∧
    (∃ (s : State) (v : Word) (rest : List Event), s.inReset = false ∧ s.inputs = .write 0x04 4 v :: rest ∧
      ∀ i, decode v ≠ .cmd i) ∧
    (∃ (s : State) (v : Word) (rest : List Event), s.inReset = false ∧ s.inputs = .write 0x04 4 v :: rest ∧
      s.pend = none ∧ ∃ i, decode v = .cmd i ∧ i.opcode ∈ [0x4, 0x5, 0x8] ∧ 51 < s.qp.toNat) ∧
    (∃ (s : State) (rest : List Event), s.inReset = false ∧ s.inputs = .write 0x08 4 0x6#32 :: rest) ∧
    ∃ (s : State) (v : Word) (rest : List Event), s.inReset = false ∧ s.inputs = .write 0x0C 4 v :: rest ∧
      v.getLsbD 0 = false :=
  ⟨⟨.nop, ready res, _, rfl⟩, ⟨on (busy 0x3) [.write 0x04 4 0x3], 0x3, [], by decide⟩,
   ⟨on (ready res) [.write 0x04 4 0x12], 0x12, [], by decide, by decide, fun i h => by
      have e : decode 0x12 = .illegal .accNotAllowed := by decide
      rw [e] at h
      cases h⟩,
   ⟨on (atQp 52 res) [.write 0x04 4 0x4], 0x4, [], rfl, rfl, rfl, .quant, by decide⟩,
   ⟨on (ready res) [.write 0x08 4 6], [], by decide⟩, ⟨on (busy 0x3) [.write 0x0C 4 0xFFFFFFFE], 0xFFFFFFFE, [], by decide⟩⟩

theorem witness_OperandsStandWhileBusy :
    ∃ s t : State, s.pend ≠ none ∧ s.accessNext = true ∧ step s = .next t :=
  ⟨on (busy 0x3) [.write 0xC0 4 7], _, by decide, by decide, rfl⟩

theorem witness_WriteAfterLaunchIsDroppedUntilCompletion :
    ∃ (s s' : State) (c v : Word) (i : Instr) (k : Fin 16) (off : Fin 256), s.inReset = false ∧ s.err = false ∧
      s.pend = some c ∧ decode c = .cmd i ∧ off.val = 0xC0 + 4 * k.val ∧ s.inputs = [.write off 4 v, .engine] ∧
      s'.inReset = false ∧ s'.err = false ∧ s'.pend = some c ∧ s'.inputs = [.engine, .write off 4 v] :=
  ⟨on (busy 0x3) [.write 0xFC 4 7, .engine], on (busy 0x3) [.engine, .write 0xFC 4 7], 0x3, 7, .had, 15, 0xFC, by decide⟩

theorem witness_AccumulatorHalvesMakeOneValue :
    ∀ lo hi : Fin 256, ∃ s : State, s.inReset = false ∧ s.pend = none ∧ s.inputs = [.read lo 4, .read hi 4] :=
  fun lo hi => ⟨on (ready res) [.read lo 4, .read hi 4], rfl, rfl, rfl⟩

theorem witness_ResetInputAbandonsAndRestores :
    (∃ (s : State) (rest : List Event), s.inputs = .resetAssert :: rest ∧ s.pend ≠ none) ∧
    (∃ s : State, s.inReset = true ∧ s.accessNext = true) ∧
    ∃ (s : State) (rest : List Event), s.inReset = true ∧ s.inputs = .resetRelease :: rest :=
  ⟨⟨on (busy 0x3) [.resetAssert], [], by decide⟩, ⟨on { ready res with inReset := true } [.read 0x00 4], by decide⟩,
   ⟨on { ready res with inReset := true } [.resetRelease], [], by decide⟩⟩

/-- A state that meets the invariant with a QUANT in flight at QP 51, an error recorded and NZCNT 16. -/
theorem witness_inv : ({ atQp 51 res with pend := some 0x4, err := true, errcode := .busy, nzcnt := 16 } : State).Inv where
  pend_accepted := by
    intro w h
    cases h
    exact ⟨.quant, by decide, by decide⟩
  busy_not_done := by decide
  err_iff_code := by decide
  nzcnt_le := by decide
  reset_idle := by decide
  params_wf := default_wf

theorem witness_EveryStepKeepsTheInvariant : ∃ s t : State, s.Inv ∧ step s = .next t ∧ s.pend ≠ none := by
  obtain ⟨t, h, -⟩ := exec_completes .quant
    { atQp 51 res with pend := some 0x4, err := true, errcode := .busy, nzcnt := 16 }
  exact ⟨_, _, witness_inv, h, by decide⟩

theorem witness_MachineStopsOnlyOnAccessDuringReset : ∃ s : State, s.Inv := ⟨_, witness_inv⟩

theorem witness_ParametersNeverChange : ∃ s t : State, step s = .next t := ⟨on (ready res) [.resetAssert], _, rfl⟩

/-- A launch, a write that it drops, and a read. -/
theorem witness_EveryAccessIsAnsweredAndCommandsComplete :
    ∃ s : State, s.Inv ∧ s.inReset = false ∧ (∀ e ∈ s.inputs, e ≠ .resetAssert) ∧
      s.inputs = [.write 0x04 4 0x3, .write 0xC0 4 7, .engine, .read 0xC0 4] :=
  ⟨on (ready res) [.write 0x04 4 0x3, .write 0xC0 4 7, .engine, .read 0xC0 4],
   ⟨fun w h => (nomatch h), by decide, by decide, by decide, by decide, default_wf⟩, by decide, by decide, rfl⟩

end Sys2Proof.Tests
end

section
/-! The matrix products of R100 and R102 as butterflies, and the parameters of R7 under every step. -/

namespace Sys2Proof.Machine

/-! ### Butterflies -/

/-- The forward butterfly multiplies by C (40_transform.md R100). -/
theorem fwdButterfly_eq_sum4 (x : Fin 4 → Int) (k : Fin 4) :
    fwdButterfly x k = sum4 fun c => Config.matC[k][c] * x c := by
  match k with
  | 0 =>
    show x 0 + x 3 + (x 1 + x 2) = 1 * x 0 + 1 * x 1 + 1 * x 2 + 1 * x 3
    omega
  | 1 =>
    show (x 0 - x 3) * 2 + (x 1 - x 2) = 2 * x 0 + 1 * x 1 + -1 * x 2 + -2 * x 3
    omega
  | 2 =>
    show x 0 + x 3 - (x 1 + x 2) = 1 * x 0 + -1 * x 1 + -1 * x 2 + 1 * x 3
    omega
  | 3 =>
    show x 0 - x 3 - (x 1 - x 2) * 2 = 1 * x 0 + -2 * x 1 + 2 * x 2 + -1 * x 3
    omega

/-- The Hadamard butterfly multiplies by H (R102). -/
theorem hadButterfly_eq_sum4 (x : Fin 4 → Int) (k : Fin 4) :
    hadButterfly x k = sum4 fun c => Config.matH[k][c] * x c := by
  match k with
  | 0 =>
    show x 0 + x 3 + (x 1 + x 2) = 1 * x 0 + 1 * x 1 + 1 * x 2 + 1 * x 3
    omega
  | 1 =>
    show x 0 - x 3 + (x 1 - x 2) = 1 * x 0 + 1 * x 1 + -1 * x 2 + -1 * x 3
    omega
  | 2 =>
    show x 0 + x 3 - (x 1 + x 2) = 1 * x 0 + -1 * x 1 + -1 * x 2 + 1 * x 3
    omega
  | 3 =>
    show x 0 - x 3 - (x 1 - x 2) = 1 * x 0 + -1 * x 1 + 1 * x 2 + -1 * x 3
    omega

/-- What multiplies a row or column by m gives M · X · Mᵀ when applied to the rows and then to the columns
(00_scope.md R12). -/
theorem mat_eq_rowsThenColumns {m : Vector (Vector Int 4) 4} {f : (Fin 4 → Int) → Fin 4 → Int}
    (hf : ∀ x k, f x k = sum4 fun c => m[k][c] * x c) (x : Fin 16 → Int) : mat m x = rowsThenColumns f x := by
  funext i
  calc mat m x i
      = sum4 fun r => m[rowOf i][r] * sum4 fun c => m[colOf i][c] * x (elemAt r c) := by
        simp only [mat, sum4, Int.mul_add, Int.mul_assoc, Int.mul_comm (x _)]
    _ = rowsThenColumns f x i := by simp only [rowsThenColumns, hf]

/-- Settles O22: each butterfly is the product by its matrix, and such products on rows and then columns are `mat`. -/
theorem matrixProductsAreButterflies : Obligations.MatrixProductsAreButterflies := fun x =>
  ⟨mat_eq_rowsThenColumns fwdButterfly_eq_sum4 x, mat_eq_rowsThenColumns hadButterfly_eq_sum4 x⟩

/-! ### The parameters -/

@[simp] theorem reject_params (k : ErrCode) (s : State) : (reject k s).params = s.params := by rw [reject_eq]

@[simp] theorem acceptWrite_params (t : State) : (acceptWrite t).params = t.params := rfl

@[simp] theorem accessError_params (s : State) : (accessError s).params = s.params := record_params .access s

/-- The release of reset keeps the parameters (log entry 10). -/
@[simp] theorem resetRelease_params (s : State) : (resetRelease s).params = s.params := by
  cases h : s.inReset with
  | false => rw [resetRelease_of_released s h]
  | true => rw [resetRelease_of_inReset s h]

@[simp] theorem commandWrite_params (v : Word) (s : State) : (commandWrite v s).params = s.params := by
  obtain ⟨-, e⟩ | ⟨-, -, e⟩ | ⟨-, -, e⟩ | ⟨-, -, e⟩ := commandWrite_cases v s <;> simp [e]

@[simp] theorem hostRead_params (off : Fin 256) (size : Nat) (s : State) :
    (hostRead off size s).params = s.params := by
  obtain e | ⟨v, e⟩ | e := hostRead_cases off size s <;> simp [e]

@[simp] theorem hostWrite_params (off : Fin 256) (size : Nat) (v : Word) (s : State) :
    (hostWrite off size v s).params = s.params := by
  obtain e | ⟨-, -, e⟩ | ⟨-, -, e⟩ | e | ⟨-, e⟩ | ⟨-, a, b, w, qp, e⟩ := hostWrite_cases off size v s <;> simp [e]

/-- An engine's turn that goes on changes nothing, or completes a command. -/
theorem engineTurn_eq_next {s t : State} (h : engineTurn s = .next t) :
    t = s ∨ ∃ u, t = complete u ∧ OnlyResultsChange s u := by
  obtain ⟨-, e⟩ | ⟨w, i, -, -, e⟩ | ⟨w, r, -, -, e⟩ := engineTurn_cases s
  · rw [e] at h
    cases h
    exact .inl rfl
  · obtain ⟨u, hu, hchange⟩ := exec_completes i s
    rw [e, hu] at h
    cases h
    exact .inr ⟨u, rfl, hchange⟩
  · rw [e] at h
    cases h

theorem engineTurn_keeps_params {s t : State} (h : engineTurn s = .next t) : t.params = s.params := by
  obtain rfl | ⟨u, rfl, hchange⟩ := engineTurn_eq_next h
  · rfl
  · exact hchange.params

/-- A host access that goes on is answered with reset released (R190). -/
theorem hostAccess_eq_next {s t u : State} (h : hostAccess s t = .next u) : s.inReset = false ∧ u = t := by
  unfold hostAccess at h
  split at h
  · cases h
  · cases h
    exact ⟨by simpa using ‹¬s.inReset = true›, rfl⟩

/-- Settles O55, by the form of the next event. -/
theorem parametersNeverChange : Obligations.ParametersNeverChange := by
  intro s t h
  obtain ⟨-, e⟩ | ⟨ev, rest, -, e⟩ := step_cases s
  · exact engineTurn_keeps_params (e.symm.trans h)
  · cases ev with
    | engine => exact engineTurn_keeps_params (s := { s with inputs := rest }) (e.symm.trans h)
    | read off size =>
      obtain ⟨-, rfl⟩ := hostAccess_eq_next (e.symm.trans h)
      exact hostRead_params off size _
    | write off size v =>
      obtain ⟨-, rfl⟩ := hostAccess_eq_next (e.symm.trans h)
      exact hostWrite_params off size v _
    | resetAssert =>
      cases e.symm.trans h
      rfl
    | resetRelease =>
      cases e.symm.trans h
      exact resetRelease_params _

end Sys2Proof.Machine
end

section
/-! What every command computes, said without a case split on its operands: each register it writes as a function of the
registers it reads (10_state.md R35). -/

namespace Sys2Proof

theorem decode_encode (i : Instr) : decode (encode i) = .cmd i := by
  cases i with
  | nop | fdct | had | quant | dequant | clracc => rfl
  | resid acc | sumabs acc | satd acc | satddct acc => cases acc <;> rfl

/-- The commands that use QP, by their opcodes (30_encoding.md R71). -/
theorem usesQp_iff (i : Instr) : i.usesQp = true ↔ i.opcode ∈ [0x4, 0x5, 0x8] := by
  cases i <;> simp [Instr.usesQp, Instr.opcode]

end Sys2Proof

namespace Sys2Proof.Machine

/-! ### Each command on any operands

`Option.elim` chooses between the result on operands that read and the free values of R191. -/

/-- The count of draws after a command whose operands read as `r`. -/
def drawsAfter (r : Option (Fin 16 → Int)) (draws : Nat) : Nat := r.elim (draws + drawsPerCommand) fun _ => draws

/-- The exact difference of A and B, where both read (42_distortion.md R131). -/
def readDiff (a b : Block) : Option (Fin 16 → Int) :=
  (readBlock a).bind fun x => (readBlock b).map fun y i => x i - y i

theorem exec_resid (acc : Bool) (s : State) : exec (.resid acc) s = .next (complete { s with
    w := (readDiff s.a s.b).elim (drawnBlock s.draws) fun d => blockOf fun i => low32 (d i)
    sad := (readDiff s.a s.b).elim (Config.draw (s.draws + 16)) fun d => accumulate acc s.sad (sumAbs d)
    sse := (readDiff s.a s.b).elim (Config.draw (s.draws + 17)) fun d => accumulate acc s.sse (sumSquares d)
    draws := drawsAfter (readDiff s.a s.b) s.draws }) := by
  rw [exec, execResid, readDiff]
  cases readBlock s.a <;> cases readBlock s.b <;> rfl

theorem exec_fdct (s : State) : exec .fdct s = .next (complete { s with
    w := (readBlock s.w).elim (drawnBlock s.draws) fun x => blockOf (fdctWords x)
    draws := drawsAfter (readBlock s.w) s.draws }) := by
  rw [exec, execFdct]
  cases readBlock s.w <;> rfl

theorem exec_had (s : State) : exec .had s = .next (complete { s with
    w := (readBlock s.w).elim (drawnBlock s.draws) fun x => blockOf (hadWords x)
    draws := drawsAfter (readBlock s.w) s.draws }) := by
  rw [exec, execHad]
  cases readBlock s.w <;> rfl

theorem exec_quant (s : State) : exec .quant s = .next (complete { s with
    w := (readBlock s.w).elim (drawnLevels s.params s.draws) fun x => blockOf (levelWords (levels s.params s.qp.toNat x))
    nzcnt := (readBlock s.w).elim (drawnCount (s.draws + 16)) fun x =>
      BitVec.ofNat 5 (nonzeroCount (levels s.params s.qp.toNat x))
    draws := drawsAfter (readBlock s.w) s.draws }) := by
  rw [exec, execQuant]
  cases readBlock s.w <;> rfl

theorem exec_dequant (s : State) : exec .dequant s = .next (complete { s with
    w := (readBlock s.w).elim (drawnBlock s.draws) fun x => blockOf (dequantWords s.params s.qp.toNat x)
    draws := drawsAfter (readBlock s.w) s.draws }) := by
  rw [exec, execDequant]
  cases readBlock s.w <;> rfl

theorem exec_sumabs (acc : Bool) (s : State) : exec (.sumabs acc) s = .next (complete { s with
    satd := (readBlock s.w).elim (Config.draw (s.draws + 16)) fun x => accumulate acc s.satd (sumAbs x)
    draws := drawsAfter (readBlock s.w) s.draws }) := by
  rw [exec, execSumabs]
  cases readBlock s.w <;> rfl

theorem exec_satd (acc : Bool) (s : State) : exec (.satd acc) s = .next (complete { s with
    w := (readBlock s.w).elim (drawnBlock s.draws) fun x => blockOf (hadWords x)
    satd := (readBlock s.w).elim (Config.draw (s.draws + 16)) fun x =>
      accumulate acc s.satd (sumAbs fun i => (hadWords x i).toInt)
    draws := drawsAfter (readBlock s.w) s.draws }) := by
  rw [exec, execSatd]
  cases readBlock s.w <;> rfl

/-- The levels that SATDDCT makes of the signed elements x (42_distortion.md R137). -/
def fdctLevels (p : Params) (qp : Nat) (x : Fin 16 → Int) : Fin 16 → Nat := levels p qp fun i => (fdctWords x i).toInt

theorem exec_satddct (acc : Bool) (s : State) : exec (.satddct acc) s = .next (complete { s with
    w := (readBlock s.w).elim (drawnLevels s.params s.draws) fun x => blockOf (levelWords (fdctLevels s.params s.qp.toNat x))
    nzcnt := (readBlock s.w).elim (drawnCount (s.draws + 16)) fun x =>
      BitVec.ofNat 5 (nonzeroCount (fdctLevels s.params s.qp.toNat x))
    satd := (readBlock s.w).elim (Config.draw (s.draws + 17)) fun x =>
      accumulate acc s.satd (sumAbs fun i => (levelWords (fdctLevels s.params s.qp.toNat x) i).toInt)
    draws := drawsAfter (readBlock s.w) s.draws }) := by
  rw [exec, execSatddct]
  cases readBlock s.w <;> rfl

theorem exec_nop (s : State) : exec .nop s = .next (complete s) := rfl

theorem exec_clracc (s : State) :
    exec .clracc s = .next (complete { s with sad := 0, sse := 0, satd := 0, nzcnt := 0 }) := rfl

/-! ### What a command leaves unchanged -/

/-- The results a command is not listed to write stay as they were (10_state.md R34, R35). -/
theorem exec_keeps_unlisted {i : Instr} {s t : State} (h : exec i s = .next t) :
    (i.opcode ∈ [0x0, 0x6, 0x9] → t.w = s.w) ∧
    (i.opcode ∉ [0x1, 0x9] → t.sad = s.sad ∧ t.sse = s.sse) ∧
    (i.opcode ∉ [0x6, 0x7, 0x8, 0x9] → t.satd = s.satd) ∧
    (i.opcode ∉ [0x4, 0x8, 0x9] → t.nzcnt = s.nzcnt) := by
  cases i with
  | nop => cases (exec_nop s).symm.trans h; simp
  | resid acc => cases (exec_resid acc s).symm.trans h; simp [Instr.opcode]
  | fdct => cases (exec_fdct s).symm.trans h; simp [Instr.opcode]
  | had => cases (exec_had s).symm.trans h; simp [Instr.opcode]
  | quant => cases (exec_quant s).symm.trans h; simp [Instr.opcode]
  | dequant => cases (exec_dequant s).symm.trans h; simp [Instr.opcode]
  | sumabs acc => cases (exec_sumabs acc s).symm.trans h; simp [Instr.opcode]
  | satd acc => cases (exec_satd acc s).symm.trans h; simp [Instr.opcode]
  | satddct acc => cases (exec_satddct acc s).symm.trans h; simp [Instr.opcode]
  | clracc => cases (exec_clracc s).symm.trans h; simp [Instr.opcode]

/-- Settles O7: the completion is `exec_completes`, and the results are `exec_keeps_unlisted`. -/
theorem commandsWriteOnlyTheirListedState : Obligations.CommandsWriteOnlyTheirListedState := by
  intro i s
  obtain ⟨t, h, hc⟩ := exec_completes i s
  exact ⟨complete t, h, rfl, rfl, hc.a, hc.b, hc.qp, hc.ie, hc.err, hc.errcode, hc.inReset, hc.params, hc.inputs,
    hc.outputs, exec_keeps_unlisted h⟩

/-! ### What a command reads -/

/-- The old accumulator counts only with ACC = 1 (42_distortion.md R130). -/
theorem accumulate_congr {acc : Bool} {old old' : Acc64} (h : acc = true → old = old') (sum : Int) :
    accumulate acc old sum = accumulate acc old' sum := by
  cases acc with
  | false => simp
  | true => rw [h rfl]

/-- Settles O8: the equation of each command names, in the registers it writes, only what R35 lists as read. -/
theorem commandsReadOnlyTheirListedState : Obligations.CommandsReadOnlyTheirListedState := by
  intro s t hp hd s' t'
  refine ⟨fun acc ha hb hacc hs ht => ?resid, fun hw hs ht => ?fdct, fun hw hs ht => ?had, fun hw hq hs ht => ?quant,
    fun hw hq hs ht => ?dequant, fun acc hw hacc hs ht => ?sumabs, fun acc hw hacc hs ht => ?satd,
    fun acc hw hq hacc hs ht => ?satddct, fun hs ht => ?clracc⟩
  case resid =>
    cases (exec_resid acc s).symm.trans hs
    cases (exec_resid acc t).symm.trans ht
    simp [ha, hb, hd, accumulate_congr fun h => (hacc h).1, accumulate_congr fun h => (hacc h).2]
  case fdct =>
    cases (exec_fdct s).symm.trans hs
    cases (exec_fdct t).symm.trans ht
    simp [hw, hd]
  case had =>
    cases (exec_had s).symm.trans hs
    cases (exec_had t).symm.trans ht
    simp [hw, hd]
  case quant =>
    cases (exec_quant s).symm.trans hs
    cases (exec_quant t).symm.trans ht
    simp [hw, hq, hp, hd]
  case dequant =>
    cases (exec_dequant s).symm.trans hs
    cases (exec_dequant t).symm.trans ht
    simp [hw, hq, hp, hd]
  case sumabs =>
    cases (exec_sumabs acc s).symm.trans hs
    cases (exec_sumabs acc t).symm.trans ht
    simp [hw, hd, accumulate_congr hacc]
  case satd =>
    cases (exec_satd acc s).symm.trans hs
    cases (exec_satd acc t).symm.trans ht
    simp [hw, hd, accumulate_congr hacc]
  case satddct =>
    cases (exec_satddct acc s).symm.trans hs
    cases (exec_satddct acc t).symm.trans ht
    simp [hw, hq, hp, hd, accumulate_congr hacc]
  case clracc =>
    cases (exec_clracc s).symm.trans hs
    cases (exec_clracc t).symm.trans ht
    exact ⟨rfl, rfl, rfl, rfl⟩

/-- No command reads IE, and none changes it (10_state.md R26). -/
theorem exec_of_ie {i : Instr} {s t : State} (h : exec i s = .next t) (b : Bool) :
    exec i { s with ie := b } = .next { t with ie := b } := by
  cases i with
  | nop => cases (exec_nop s).symm.trans h; exact exec_nop _
  | resid acc => cases (exec_resid acc s).symm.trans h; exact exec_resid acc _
  | fdct => cases (exec_fdct s).symm.trans h; exact exec_fdct _
  | had => cases (exec_had s).symm.trans h; exact exec_had _
  | quant => cases (exec_quant s).symm.trans h; exact exec_quant _
  | dequant => cases (exec_dequant s).symm.trans h; exact exec_dequant _
  | sumabs acc => cases (exec_sumabs acc s).symm.trans h; exact exec_sumabs acc _
  | satd acc => cases (exec_satd acc s).symm.trans h; exact exec_satd acc _
  | satddct acc => cases (exec_satddct acc s).symm.trans h; exact exec_satddct acc _
  | clracc => cases (exec_clracc s).symm.trans h; exact exec_clracc _

end Sys2Proof.Machine
end

section
/-! STATUS and CTRL as words (10_state.md R22, R26). -/

namespace Sys2Proof.Machine

theorem toNat_append_add {m n : Nat} (x : BitVec m) (y : BitVec n) : (x ++ y).toNat = x.toNat * 2 ^ n + y.toNat := by
  rw [BitVec.toNat_append, ← Nat.shiftLeft_add_eq_or_of_lt y.isLt, Nat.shiftLeft_eq]

/-- STATUS as a number: ERRCODE from bit 4 on, below it ERR, DONE and BUSY (R22). -/
theorem statusWord_toNat (s : State) : (statusWord s).toNat =
    s.errcode.code.toNat * 2 ^ 4 + s.err.toNat * 2 ^ 2 + s.done.toNat * 2 + s.pend.isSome.toNat := by
  show BitVec.toNat (w := 24 + 4 + 1 + 1 + 1 + 1) (0#24 ++ s.errcode.code ++ 0#1 ++ BitVec.ofBool s.err ++
    BitVec.ofBool s.done ++ BitVec.ofBool s.pend.isSome) = _
  simp only [toNat_append_add, BitVec.toNat_ofBool, BitVec.toNat_ofNat]
  omega

/-- STATUS bit by bit: the flags, bit 3, and ERRCODE from bit 4 on (R22). -/
theorem getLsbD_statusWord (s : State) (i : Nat) : (statusWord s).getLsbD i =
    if i = 0 then s.pend.isSome else if i = 1 then s.done else if i = 2 then s.err else if i = 3 then false
    else s.errcode.code.getLsbD (i - 4) := by
  show BitVec.getLsbD (w := 24 + 4 + 1 + 1 + 1 + 1) (0#24 ++ s.errcode.code ++ 0#1 ++ BitVec.ofBool s.err ++
    BitVec.ofBool s.done ++ BitVec.ofBool s.pend.isSome) i = _
  simp only [BitVec.getLsbD_append]
  match i with
  | 0 | 1 | 2 | 3 => simp
  | i + 4 => simpa using BitVec.lt_of_getLsbD

/-- ERRCODE stands in bits 7:4 of STATUS (R22, 60_exceptions.md R160). -/
theorem statusWord_errcode (s : State) : (statusWord s).toNat / 2 ^ 4 = s.errcode.code.toNat := by
  have hb := s.pend.isSome.toNat_lt
  have hd := s.done.toNat_lt
  have he := s.err.toNat_lt
  rw [statusWord_toNat]
  omega

/-- Settles O39, from the flags' bits and the code above them. -/
theorem statusWordLayout : Obligations.StatusWordLayout := by
  intro s
  have hbit := getLsbD_statusWord s
  have hcode := statusWord_errcode s
  refine ⟨hbit 0, hbit 1, hbit 2, hbit 3, ?_, ?_, ?_, ?_, ?_, ?_⟩
  · have := s.errcode.code.isLt
    omega
  all_goals
    intro e
    rw [hcode, e]
    rfl

/-- CTRL has IE in bit 0 and 0 elsewhere (R26). -/
theorem ctrlWord_eq (s : State) : ctrlWord s = if s.ie then 1 else 0 := by
  rw [ctrlWord]
  cases s.ie <;> rfl

end Sys2Proof.Machine
end

section
/-! The step at each form of the input list, and a host access to a register of the window. -/

namespace Sys2Proof.Machine

variable {s : State} {rest : List Event} {off : Fin 256} {v : Word}

/-! ### The engine's turn -/

theorem engineTurn_of_pend {w : Word} {i : Instr} (hp : s.pend = some w) (hd : decode w = .cmd i) :
    engineTurn s = exec i s := by
  simp only [engineTurn, commandInFlight, hp, Option.map_some, hd]

theorem step_of_nil (h : s.inputs = []) : step s = engineTurn s := by
  simp only [step, h]

theorem step_of_engine (h : s.inputs = .engine :: rest) : step s = engineTurn { s with inputs := rest } := by
  simp only [step, h]

/-- Settles O5: the engine's turn, with the list empty or with its own turn taken off. -/
theorem engineTurnRunsTheCommandInFlight : Obligations.EngineTurnRunsTheCommandInFlight := fun _ _ _ hp hd =>
  ⟨fun h => (step_of_nil h).trans (engineTurn_of_pend hp hd), fun _ h => (step_of_engine h).trans (engineTurn_of_pend hp hd)⟩

/-- The word of a table row of 32 bits is the row's own word (30_encoding.md R77). -/
theorem tableWord_toNat (w : Word) : tableWord 32 w.toNat = w := by
  rw [tableWord, Nat.mod_eq_of_lt w.isLt, BitVec.ofNat_toNat, BitVec.setWidth_eq]

/-- Settles O6: the placed word is the command's own, and the engine's turn comes first. -/
theorem placedWordRunsNext : Obligations.PlacedWordRunsNext := by
  intro s i
  calc step (s.withFetchWord 32 (encode i).toNat)
      = engineTurn { s with pend := some (tableWord 32 (encode i).toNat) } := step_of_engine rfl
    _ = engineTurn { s with pend := some (encode i) } := by rw [tableWord_toNat]
    _ = exec i { s with pend := some (encode i) } := engineTurn_of_pend rfl (decode_encode i)

/-! ### Host accesses -/

/-- With reset released, a read is answered (R190). -/
theorem step_of_read {size : Nat} (hr : s.inReset = false) (h : s.inputs = .read off size :: rest) :
    step s = .next (hostRead off size { s with inputs := rest }) := by
  simp [step, h, hostAccess, hr]

/-- With reset released, a write is answered (R190). -/
theorem step_of_write {size : Nat} (hr : s.inReset = false) (h : s.inputs = .write off size v :: rest) :
    step s = .next (hostWrite off size v { s with inputs := rest }) := by
  simp [step, h, hostAccess, hr]

/-- The read of a register (20_memory.md R54). -/
theorem step_of_read_reg {r : Reg} (hr : s.inReset = false) (h : s.inputs = .read off 4 :: rest)
    (ho : regAt off = some r) : step s = .next (readReg r { s with inputs := rest }) := by
  simp [step_of_read hr h, hostRead, target, ho]

/-- The write of a register (20_memory.md R54). -/
theorem step_of_write_reg {r : Reg} (hr : s.inReset = false) (h : s.inputs = .write off 4 v :: rest)
    (ho : regAt off = some r) : step s = .next (writeReg r v { s with inputs := rest }) := by
  simp [step_of_write hr h, hostWrite, target, ho]

theorem readReg_of_value {r : Reg} (h : regValue r s = some v) : readReg r s = respond (.readData v false) s := by
  rw [readReg, h]

theorem readReg_of_unspecified {r : Reg} (h : regValue r s = none) :
    readReg r s = respond (.readData (drawWord s.draws) false) { s with draws := s.draws + 1 } := by
  rw [readReg, h]

theorem unlessInFlight_of_idle (h : s.pend = none) (t : State) : unlessInFlight s t = acceptWrite t := by
  simp [unlessInFlight, State.busy, h]

theorem unlessInFlight_of_busy (h : s.pend ≠ none) (t : State) : unlessInFlight s t =
    acceptWrite { s with err := true, errcode := if s.err then s.errcode else .busy } := by
  rw [unlessInFlight, if_pos ((busy_eq_true s).mpr h), record_eq]

/-- A command that uses QP is rejected with QP_RANGE where QP is above 51 (60_exceptions.md R161). -/
theorem commandWrite_of_qpRange {i : Instr} (hp : s.pend = none) (hd : decode v = .cmd i) (hu : i.usesQp = true)
    (hq : Config.qpMax < s.qp.toNat) : commandWrite v s =
      { s with err := true, errcode := if s.err then s.errcode else .qpRange, done := true } := by
  rw [commandWrite, if_neg (by simp [hp]), hd, ← reject_eq]
  exact if_pos ⟨hu, hq⟩

/-- The read of a register that has a value answers it, and changes nothing else. -/
theorem step_of_read_value {r : Reg} (hr : s.inReset = false) (h : s.inputs = .read off 4 :: rest)
    (ho : regAt off = some r) (hv : regValue r { s with inputs := rest } = some v) :
    step s = .next { s with inputs := rest, outputs := s.outputs ++ [.readData v false] } :=
  (step_of_read_reg hr h ho).trans (congrArg _ (readReg_of_value hv))

/-- A read of CTRL (10_state.md R26). -/
theorem step_of_read_ctrl (hr : s.inReset = false) (h : s.inputs = .read 0x0C 4 :: rest) :
    step s = .next { s with inputs := rest, outputs := s.outputs ++ [.readData (if s.ie then 1 else 0) false] } :=
  step_of_read_value hr h (r := .ctrl) rfl (congrArg some (ctrlWord_eq _))

/-- A read of QP (10_state.md R27). -/
theorem step_of_read_qp (hr : s.inReset = false) (h : s.inputs = .read 0x10 4 :: rest) :
    step s = .next { s with
      inputs := rest, outputs := s.outputs ++ [.readData (BitVec.ofNat 32 s.qp.toNat) false] } :=
  step_of_read_value hr h (r := .qp) rfl (congrArg some (BitVec.ofNat_toNat 32 s.qp).symm)

/-! ### Reads while a command is in flight -/

/-- The results and the elements of the blocks have no value to read while a command is in flight (10_state.md R33). -/
theorem regValue_of_busy {r : Reg} (hp : s.pend ≠ none) (hr : 0x14 ≤ r.offset) : regValue r s = none := by
  have hv (v : Option Word) : unlessBusy s v = none := if_pos ((busy_eq_true s).mpr hp)
  cases r with
  | id | cmd | status | ctrl | qp => simp [Reg.offset] at hr
  | nzcnt | sadLo | sadHi | sseLo | sseHi | satdLo | satdHi => exact hv _
  | a i | b i | w i => exact hv _

/-- The offsets of the results and of the elements of the blocks are those of registers (20_memory.md R52). -/
theorem regAt_of_result_or_element (ha : off.val % 4 = 0)
    (h : off.val ∈ [0x14, 0x18, 0x1C, 0x20, 0x24, 0x28, 0x2C] ∨ 0x40 ≤ off.val) : ∃ r, regAt off = some r := by
  rw [regAt, if_neg (by omega)]
  split
  · exact ⟨_, rfl⟩
  split
  · exact ⟨_, rfl⟩
  split
  · exact ⟨_, rfl⟩
  · have hm : off.val ∈ [0x14, 0x18, 0x1C, 0x20, 0x24, 0x28, 0x2C] := h.resolve_right ‹_›
    simp only [List.mem_cons, List.not_mem_nil, or_false] at hm
    obtain e | e | e | e | e | e | e := hm <;> exact e ▸ ⟨_, rfl⟩

/-- Settles O37: a control register has its value while a command is in flight, and no other register has one. -/
theorem readsWhileBusy : Obligations.ReadsWhileBusy := by
  intro s off rest hr h hp ha
  refine ⟨fun e => ?_, fun e => ?_, fun e => ?_, fun e => ?_, fun e => ?_, fun ho => ?_⟩
  · obtain rfl : off = 0x00 := Fin.ext e
    exact step_of_read_value hr h (r := .id) rfl rfl
  · obtain rfl : off = 0x04 := Fin.ext e
    exact step_of_read_value hr h (r := .cmd) rfl rfl
  · obtain rfl : off = 0x08 := Fin.ext e
    exact step_of_read_value hr h (r := .status) rfl rfl
  · obtain rfl : off = 0x0C := Fin.ext e
    exact step_of_read_ctrl hr h
  · obtain rfl : off = 0x10 := Fin.ext e
    exact step_of_read_qp hr h
  · obtain ⟨r, hreg⟩ := regAt_of_result_or_element ha ho
    have hoff : 0x14 ≤ r.offset := by
      rw [← offset_of_regAt hreg]
      simp only [List.mem_cons, List.not_mem_nil, or_false] at ho
      omega
    exact (step_of_read_reg hr h hreg).trans (congrArg _ (readReg_of_unspecified (regValue_of_busy hp hoff)))

/-! ### Writes to CTRL, QP and CMD -/

/-- A write to CTRL sets IE to its bit 0, while a command is in flight too (10_state.md R26). -/
theorem step_of_write_ctrl (hr : s.inReset = false) (h : s.inputs = .write 0x0C 4 v :: rest) :
    step s = .next { s with ie := v.getLsbD 0, inputs := rest, outputs := s.outputs ++ [.writeDone false] } :=
  step_of_write_reg hr h (r := .ctrl) rfl

/-- Settles O40: the write and the read of CTRL, and `exec_of_ie` for what no command looks at. -/
theorem ctrlHoldsTheInterruptEnable : Obligations.CtrlHoldsTheInterruptEnable := fun _ _ _ hr =>
  ⟨step_of_write_ctrl hr, step_of_read_ctrl hr, rfl, rfl, fun _ _ h => exec_of_ie h⟩

/-- A write to QP stores bits 5:0 while no command is in flight (10_state.md R27). -/
theorem step_of_write_qp_idle (hr : s.inReset = false) (h : s.inputs = .write 0x10 4 v :: rest) (hp : s.pend = none) :
    step s = .next { s with
      qp := BitVec.ofNat 6 v.toNat, inputs := rest, outputs := s.outputs ++ [.writeDone false] } :=
  (step_of_write_reg hr h (r := .qp) rfl).trans (congrArg _ (unlessInFlight_of_idle (s := { s with inputs := rest }) hp _))

/-- A write to QP is dropped and records BUSY while a command is in flight (60_exceptions.md R163). -/
theorem step_of_write_qp_busy (hr : s.inReset = false) (h : s.inputs = .write 0x10 4 v :: rest) (hp : s.pend ≠ none) :
    step s = .next { s with
      err := true, errcode := if s.err then s.errcode else .busy
      inputs := rest, outputs := s.outputs ++ [.writeDone false] } :=
  (step_of_write_reg hr h (r := .qp) rfl).trans (congrArg _ (unlessInFlight_of_busy (s := { s with inputs := rest }) hp _))

/-- A command that uses QP, written while QP is above 51 (10_state.md R27, 60_exceptions.md R161). -/
theorem step_of_write_cmd_qpRange {i : Instr} (hr : s.inReset = false) (h : s.inputs = .write 0x04 4 v :: rest)
    (hp : s.pend = none) (hq : 51 < s.qp.toNat) (hd : decode v = .cmd i) (hi : i.opcode ∈ [0x4, 0x5, 0x8]) :
    step s = .next { s with
      done := true, err := true, errcode := if s.err then s.errcode else .qpRange
      inputs := rest, outputs := s.outputs ++ [.writeDone false] } :=
  (step_of_write_reg hr h (r := .cmd) rfl).trans
    (congrArg (fun t => Host.Outcome.next (acceptWrite t))
      (commandWrite_of_qpRange (s := { s with inputs := rest }) hp hd ((usesQp_iff i).mpr hi) hq))

/-- Settles O41: the writes and the read of QP, and the check at a CMD write. -/
theorem qpIsCheckedOnlyAtACommand : Obligations.QpIsCheckedOnlyAtACommand := fun _ _ _ hr =>
  ⟨fun h => ⟨step_of_write_qp_idle hr h, step_of_write_qp_busy hr h⟩, step_of_read_qp hr,
    fun h hp hq _ hd hi => step_of_write_cmd_qpRange hr h hp hq hd hi, rfl⟩

end Sys2Proof.Machine
end

section
/-! What one step can do to PEND, DONE, ERR and ERRCODE (10_state.md R23 to R25), and what a host access leaves while a
command is in flight (R32). -/

namespace Sys2Proof.Machine

variable {s t : State}

/-! ### Host accesses and the control state -/

/-- PEND and DONE stay, and so does an error recorded before (10_state.md R25). -/
structure KeepsControl (s t : State) : Prop where
  pend : t.pend = s.pend
  done : t.done = s.done
  error : s.err = true → t.err = true ∧ t.errcode = s.errcode

/-- What sets none of the four keeps them. -/
theorem KeepsControl.of_eq (hp : t.pend = s.pend) (hd : t.done = s.done) (he : t.err = s.err)
    (hc : t.errcode = s.errcode) : KeepsControl s t :=
  ⟨hp, hd, fun h => ⟨he.trans h, hc⟩⟩

/-- The bus's answer is no control state. -/
theorem KeepsControl.respond (h : KeepsControl s t) (r : Response) : KeepsControl s (respond r t) :=
  ⟨h.pend, h.done, h.error⟩

theorem record_keepsControl (k : ErrCode) (s : State) : KeepsControl s (record k s) :=
  ⟨record_pend k s, record_done k s, fun h => ⟨record_err k s, by rw [record_errcode, if_pos h]⟩⟩

/-- No read changes the control state, beyond recording an ACCESS error. -/
theorem hostRead_keepsControl (off : Fin 256) (size : Nat) (s : State) : KeepsControl s (hostRead off size s) := by
  obtain e | ⟨v, e⟩ | e := hostRead_cases off size s
  · exact e ▸ (record_keepsControl .access s).respond _
  · exact e ▸ .of_eq rfl rfl rfl rfl
  · exact e ▸ .of_eq rfl rfl rfl rfl

/-- A write to CMD launches or rejects a command, or only records BUSY (60_exceptions.md R161). -/
theorem commandWrite_control (v : Word) (s : State) :
    KeepsControl s (commandWrite v s) ∨
    (s.pend = none ∧ (commandWrite v s = launch v s ∨ ∃ k, commandWrite v s = reject k s)) := by
  obtain ⟨-, e⟩ | ⟨hp, -, e⟩ | ⟨hp, -, e⟩ | ⟨hp, -, e⟩ := commandWrite_cases v s
  · exact .inl (e ▸ record_keepsControl .busy s)
  · exact .inr ⟨hp, .inr ⟨_, e⟩⟩
  · exact .inr ⟨hp, .inr ⟨_, e⟩⟩
  · exact .inr ⟨hp, .inl e⟩

/-- A write keeps the control state, or it is a write to CMD that launches or rejects a command, or to STATUS. -/
theorem hostWrite_control (off : Fin 256) (size : Nat) (v : Word) (s : State) :
    KeepsControl s (hostWrite off size v s) ∨
    (off = 0x04 ∧ size = 4 ∧ s.pend = none ∧ (hostWrite off size v s = acceptWrite (launch v s) ∨
      ∃ k, hostWrite off size v s = acceptWrite (reject k s))) ∨
    (off = 0x08 ∧ size = 4 ∧ hostWrite off size v s = acceptWrite (statusWrite v s)) := by
  obtain e | ⟨ho, hs, e⟩ | h | e | ⟨-, e⟩ | ⟨-, a, b, w, qp, e⟩ := hostWrite_cases off size v s
  · exact .inl (e ▸ (record_keepsControl .access s).respond _)
  · rw [e]
    obtain h | ⟨hp, h | ⟨k, h⟩⟩ := commandWrite_control v s
    · exact .inl (h.respond _)
    · exact .inr (.inl ⟨ho, hs, hp, .inl (congrArg acceptWrite h)⟩)
    · exact .inr (.inl ⟨ho, hs, hp, .inr ⟨k, congrArg acceptWrite h⟩⟩)
  · exact .inr (.inr h)
  · exact .inl (e ▸ .of_eq rfl rfl rfl rfl)
  · exact .inl (e ▸ (record_keepsControl .busy s).respond _)
  · exact .inl (e ▸ .of_eq rfl rfl rfl rfl)

/-! ### What a step can do to the control state -/

/-- The engine's turn is next (log entry 2). -/
def State.EngineNext (s : State) : Prop := s.inputs = [] ∨ ∃ rest, s.inputs = .engine :: rest

/-- What a step from s to t does to PEND, DONE, ERR and ERRCODE. -/
inductive ControlStep (s t : State) : Prop
  /-- Nothing, beyond recording a first error. -/
  | quiet (hk : KeepsControl s t)
  /-- The engine completes the command in flight (10_state.md R32). -/
  | completion (turn : s.EngineNext) (hp : s.pend ≠ none) (hp' : t.pend = none) (hd : t.done = true)
      (he : t.err = s.err) (hc : t.errcode = s.errcode)
  /-- A CMD write launches a command (60_exceptions.md R165). -/
  | launch (v : Word) (rest : List Event) (hi : s.inputs = .write 0x04 4 v :: rest) (hp : s.pend = none)
      (ht : t = acceptWrite (launch v { s with inputs := rest }))
  /-- A CMD write is rejected with ILLEGAL_CMD or QP_RANGE (R161). -/
  | reject (k : ErrCode) (v : Word) (rest : List Event) (hi : s.inputs = .write 0x04 4 v :: rest) (hp : s.pend = none)
      (ht : t = acceptWrite (reject k { s with inputs := rest }))
  /-- A STATUS write clears the flags it names (10_state.md R22). -/
  | clear (v : Word) (rest : List Event) (hi : s.inputs = .write 0x08 4 v :: rest)
      (ht : t = acceptWrite (statusWrite v { s with inputs := rest }))
  /-- Reset is asserted (70_reset_and_hazards.md R190). -/
  | abandon (rest : List Event) (hi : s.inputs = .resetAssert :: rest) (ht : t = resetAssert { s with inputs := rest })
  /-- Reset is released after an assertion (R190). -/
  | release (rest : List Event) (hi : s.inputs = .resetRelease :: rest) (hr : s.inReset = true)
      (ht : t = { State.reset with params := s.params, draws := s.draws, inputs := rest, outputs := s.outputs })

/-- The engine's turn changes the control state only where it completes a command; `l` is the list after the turn. -/
theorem controlStep_of_engineTurn {l : List Event} (turn : s.EngineNext)
    (h : engineTurn { s with inputs := l } = .next t) : ControlStep s t := by
  obtain ⟨-, e⟩ | ⟨w, i, hp, -, e⟩ | ⟨w, r, -, -, e⟩ := engineTurn_cases { s with inputs := l }
  · cases e.symm.trans h
    exact .quiet (.of_eq rfl rfl rfl rfl)
  · obtain ⟨u, hu, hc⟩ := exec_completes i { s with inputs := l }
    cases (e.trans hu).symm.trans h
    exact .completion turn (fun hn => nomatch hp.symm.trans hn) rfl rfl hc.err hc.errcode
  · cases e.symm.trans h

/-- A write that is answered launches, rejects, clears, or is quiet. -/
theorem controlStep_of_write {off : Fin 256} {size : Nat} {v : Word} {rest : List Event}
    (hi : s.inputs = .write off size v :: rest) : ControlStep s (hostWrite off size v { s with inputs := rest }) := by
  obtain hk | ⟨rfl, rfl, hp, e | ⟨k, e⟩⟩ | ⟨rfl, rfl, e⟩ := hostWrite_control off size v { s with inputs := rest }
  · exact .quiet ⟨hk.pend, hk.done, hk.error⟩
  · exact .launch v rest hi hp e
  · exact .reject k v rest hi hp e
  · exact .clear v rest hi e

/-- Every step that goes on is one of these. -/
theorem controlStep_of_step (h : step s = .next t) : ControlStep s t := by
  obtain ⟨hi, e⟩ | ⟨ev, rest, hi, e⟩ := step_cases s
  · exact controlStep_of_engineTurn (l := s.inputs) (.inl hi) (e.symm.trans h)
  · cases ev with
    | engine => exact controlStep_of_engineTurn (.inr ⟨rest, hi⟩) (e.symm.trans h)
    | read off size =>
      obtain ⟨-, rfl⟩ := hostAccess_eq_next (e.symm.trans h)
      have hk := hostRead_keepsControl off size { s with inputs := rest }
      exact .quiet ⟨hk.pend, hk.done, hk.error⟩
    | write off size v =>
      obtain ⟨-, rfl⟩ := hostAccess_eq_next (e.symm.trans h)
      exact controlStep_of_write hi
    | resetAssert =>
      cases e.symm.trans h
      exact .abandon rest hi rfl
    | resetRelease =>
      cases e.symm.trans h
      by_cases hr : s.inReset = true
      · exact .release rest hi hr (resetRelease_of_inReset { s with inputs := rest } hr)
      · rw [resetRelease_of_released { s with inputs := rest } (by simpa using hr)]
        exact .quiet (.of_eq rfl rfl rfl rfl)

/-- Settles O43, by what the step does to the control state. -/
theorem busyChangesOnlyByLaunchCompletionOrReset : Obligations.BusyChangesOnlyByLaunchCompletionOrReset := by
  intro s t h hne
  cases controlStep_of_step h with
  | quiet hk => exact absurd hk.pend hne
  | completion turn hp hp' hd he hc => exact .inr (.inl ⟨turn, hp', hd⟩)
  | launch v rest hi hp ht => exact .inl ⟨v, rest, hi, hp, ht ▸ rfl, ht ▸ rfl⟩
  | reject k v rest hi hp ht => exact absurd (ht ▸ record_pend k _) hne
  | clear v rest hi ht => exact absurd (ht ▸ rfl) hne
  | abandon rest hi ht => exact .inr (.inr ⟨rest, .inl hi, ht ▸ rfl⟩)
  | release rest hi hr ht => exact .inr (.inr ⟨rest, .inr hi, ht ▸ rfl⟩)

/-- Settles O44, by what the step does to the control state. -/
theorem doneChangesOnlyAtTheListedEvents : Obligations.DoneChangesOnlyAtTheListedEvents := by
  intro s t h hne
  cases controlStep_of_step h with
  | quiet hk => exact absurd hk.done hne
  | completion turn hp hp' hd he hc => exact .inr (.inl ⟨hd, turn, hp, hp'⟩)
  | launch v rest hi hp ht => exact .inl ⟨ht ▸ rfl, v, rest, hi, ht ▸ rfl⟩
  | reject k v rest hi hp ht =>
    exact .inr (.inr (.inl ⟨ht ▸ rfl, v, rest, hi, hp, ht ▸ (record_pend k _).trans hp, ht ▸ record_err k _⟩))
  | clear v rest hi ht =>
    have hd : t.done = if v.getLsbD 1 then false else s.done := ht ▸ rfl
    by_cases hv : v.getLsbD 1 = true
    · exact .inr (.inr (.inr (.inl ⟨hd.trans (if_pos hv), v, rest, hi, hv⟩)))
    · exact absurd (hd.trans (if_neg hv)) hne
  | abandon rest hi ht => exact absurd (ht ▸ rfl) hne
  | release rest hi hr ht => exact .inr (.inr (.inr (.inr ⟨ht ▸ rfl, rest, hi, hr⟩)))

/-- Settles O45, by what the step does to the control state. -/
theorem firstErrorIsKeptUntilCleared : Obligations.FirstErrorIsKeptUntilCleared := by
  intro s t h herr
  cases controlStep_of_step h with
  | quiet hk => exact .inl (hk.error herr)
  | completion turn hp hp' hd he hc => exact .inl ⟨he.trans herr, hc⟩
  | launch v rest hi hp ht => exact .inl ⟨ht ▸ herr, ht ▸ rfl⟩
  | reject k v rest hi hp ht => exact .inl (ht ▸ (record_keepsControl k { s with inputs := rest }).error herr)
  | clear v rest hi ht =>
    have he : t.err = if v.getLsbD 2 then false else s.err := ht ▸ rfl
    have hc : t.errcode = if v.getLsbD 2 then .noError else s.errcode := ht ▸ rfl
    by_cases hv : v.getLsbD 2 = true
    · exact .inr ⟨he.trans (if_pos hv), hc.trans (if_pos hv), .inl ⟨v, rest, hi, hv⟩⟩
    · exact .inl ⟨(he.trans (if_neg hv)).trans herr, hc.trans (if_neg hv)⟩
  | abandon rest hi ht => exact .inl ⟨ht ▸ herr, ht ▸ rfl⟩
  | release rest hi hr ht => exact .inr ⟨ht ▸ rfl, ht ▸ rfl, .inr ⟨rest, hi, hr⟩⟩

/-! ### Host accesses while a command is in flight -/

/-- The command in flight, the blocks, QP and the results stay, and DONE is not set (10_state.md R32). -/
structure KeepsOperands (s t : State) : Prop where
  pend : t.pend = s.pend
  done : t.done = true → s.done = true
  a : t.a = s.a
  b : t.b = s.b
  w : t.w = s.w
  qp : t.qp = s.qp
  nzcnt : t.nzcnt = s.nzcnt
  sad : t.sad = s.sad
  sse : t.sse = s.sse
  satd : t.satd = s.satd

theorem record_keepsOperands (k : ErrCode) (s : State) : KeepsOperands s (record k s) := by
  rw [record_eq]
  exact ⟨rfl, id, rfl, rfl, rfl, rfl, rfl, rfl, rfl, rfl⟩

theorem KeepsOperands.respond (h : KeepsOperands s t) (r : Response) : KeepsOperands s (respond r t) :=
  ⟨h.pend, h.done, h.a, h.b, h.w, h.qp, h.nzcnt, h.sad, h.sse, h.satd⟩

theorem hostRead_keepsOperands (off : Fin 256) (size : Nat) (s : State) : KeepsOperands s (hostRead off size s) := by
  obtain e | ⟨v, e⟩ | e := hostRead_cases off size s
  · exact e ▸ (record_keepsOperands .access s).respond _
  · exact e ▸ ⟨rfl, id, rfl, rfl, rfl, rfl, rfl, rfl, rfl, rfl⟩
  · exact e ▸ ⟨rfl, id, rfl, rfl, rfl, rfl, rfl, rfl, rfl, rfl⟩

theorem statusWrite_keepsOperands (v : Word) (s : State) : KeepsOperands s (statusWrite v s) := by
  refine ⟨rfl, fun h => ?_, rfl, rfl, rfl, rfl, rfl, rfl, rfl, rfl⟩
  rw [statusWrite_done] at h
  split at h
  · cases h
  · exact h

/-- While a command is in flight a write records an error, clears flags or sets IE, and nothing more (R163, R164). -/
theorem hostWrite_keepsOperands (hp : s.pend ≠ none) (off : Fin 256) (size : Nat) (v : Word) :
    KeepsOperands s (hostWrite off size v s) := by
  obtain e | ⟨-, -, e⟩ | ⟨-, -, e⟩ | e | ⟨-, e⟩ | ⟨hn, -⟩ := hostWrite_cases off size v s
  · exact e ▸ (record_keepsOperands .access s).respond _
  · rw [e, commandWrite, if_pos ((busy_eq_true s).mpr hp)]
    exact (record_keepsOperands .busy s).respond _
  · exact e ▸ (statusWrite_keepsOperands v s).respond _
  · exact e ▸ ⟨rfl, id, rfl, rfl, rfl, rfl, rfl, rfl, rfl, rfl⟩
  · exact e ▸ (record_keepsOperands .busy s).respond _
  · exact absurd hn hp

/-- Settles O47: the next event is a read or a write, and either keeps the operands. -/
theorem operandsStandWhileBusy : Obligations.OperandsStandWhileBusy := by
  intro s t hp ha h
  unfold State.accessNext at ha
  split at ha
  next off size rest hi =>
    rw [step, hi] at h
    obtain ⟨-, rfl⟩ := hostAccess_eq_next h
    have hk := hostRead_keepsOperands off size { s with inputs := rest }
    exact ⟨hk.pend, hk.done, hk.a, hk.b, hk.w, hk.qp, hk.nzcnt, hk.sad, hk.sse, hk.satd⟩
  next off size v rest hi =>
    rw [step, hi] at h
    obtain ⟨-, rfl⟩ := hostAccess_eq_next h
    have hk := hostWrite_keepsOperands (s := { s with inputs := rest }) hp off size v
    exact ⟨hk.pend, hk.done, hk.a, hk.b, hk.w, hk.qp, hk.nzcnt, hk.sad, hk.sse, hk.satd⟩
  next => cases ha

end Sys2Proof.Machine
end

section
/-! The register window (20_memory.md): which addresses reach it, which accesses are bad, and what a good access of each
register reads or stores. -/

namespace Sys2Proof.Machine

variable {s : State} {rest : List Event} {off : Fin 256} {v : Word} {r : Reg}

/-! ### The window's addresses -/

/-- Address TQD_BASE + off reaches offset off (R50). -/
theorem windowOffset_base_add (off : Fin 256) : windowOffset (Config.tqdBase + off.val) = some off := by
  have hin : Config.tqdBase ≤ Config.tqdBase + off.val ∧ Config.tqdBase + off.val - Config.tqdBase < 256 := by omega
  rw [windowOffset, dif_pos hin]
  exact congrArg some (Fin.ext (Nat.add_sub_cancel_left ..))

/-- No address below TQD_BASE or from TQD_BASE + 256 on reaches the window (R50). -/
theorem windowOffset_of_outside {addr : Nat} (h : addr < Config.tqdBase ∨ Config.tqdBase + 256 ≤ addr) :
    windowOffset addr = none :=
  dif_neg (by omega)

/-- Settles O42: both accesses go by the window offset of their address. -/
theorem windowIs256BytesAtItsBase : Obligations.WindowIs256BytesAtItsBase := by
  refine ⟨Nat.mul_mod_right .., fun off size v => ⟨?_, ?_⟩, fun addr size v h => ⟨?_, ?_⟩⟩
  · rw [memRead, windowOffset_base_add, Option.map_some]
  · rw [memWrite, windowOffset_base_add, Option.map_some]
  · rw [memRead, windowOffset_of_outside h, Option.map_none]
  · rw [memWrite, windowOffset_of_outside h, Option.map_none]

/-! ### The map of R52 -/

theorem Reg.offset_lt (r : Reg) : r.offset < 256 := by
  cases r with
  | id | cmd | status | ctrl | qp | nzcnt | sadLo | sadHi | sseLo | sseHi | satdLo | satdHi => decide
  | a i | b i | w i =>
    simp only [Reg.offset]
    omega

/-- Registers stand at multiples of 4, and none at a reserved offset (R51, R53). -/
theorem Reg.offset_aligned_not_reserved (r : Reg) : r.offset % 4 = 0 ∧ ¬(0x30 ≤ r.offset ∧ r.offset ≤ 0x3C) := by
  cases r with
  | id | cmd | status | ctrl | qp | nzcnt | sadLo | sadHi | sseLo | sseHi | satdLo | satdHi => decide
  | a i | b i | w i =>
    simp only [Reg.offset]
    omega

theorem regAt_ofNat_offset (r : Reg) : regAt (Fin.ofNat 256 r.offset) = some r := by
  cases r with
  | id | cmd | status | ctrl | qp | nzcnt | sadLo | sadHi | sseLo | sseHi | satdLo | satdHi => rfl
  | a i | b i | w i => revert i; decide

/-- The converse of `offset_of_regAt`: the map finds a register at its offset. -/
theorem regAt_of_offset (h : off.val = r.offset) : regAt off = some r := by
  have e : off = Fin.ofNat 256 r.offset := Fin.ext (h.trans (Nat.mod_eq_of_lt r.offset_lt).symm)
  rw [e, regAt_ofNat_offset]

/-- A bad access reaches no register (R51, R53, R54). -/
theorem target_of_bad {size : Nat} (h : size ≠ 4 ∨ off.val % 4 ≠ 0 ∨ (0x30 ≤ off.val ∧ off.val ≤ 0x3C)) :
    target off size = none := by
  refine Option.eq_none_iff_forall_ne_some.mpr fun r ht => ?_
  obtain ⟨hs, ho⟩ : size = 4 ∧ regAt off = some r := by simpa [target] using ht
  obtain ⟨haligned, hreserved⟩ := r.offset_aligned_not_reserved
  rw [← offset_of_regAt ho] at haligned hreserved
  omega

/-! ### Bad accesses, and writes that are refused or dropped -/

/-- A refused write records ACCESS and is answered (60_exceptions.md R163). -/
theorem accessError_eq (s : State) : accessError s = { s with
    err := true, errcode := if s.err then s.errcode else .access
    outputs := s.outputs ++ [.writeDone Config.busErrSignal] } := by
  rw [accessError, record_eq, respond]

/-- The offsets of the read-only registers are those of registers that refuse every write (R52, R53). -/
theorem regAt_readOnly (h : off.val ∈ [0x00, 0x14, 0x18, 0x1C, 0x20, 0x24, 0x28, 0x2C]) :
    ∃ r, regAt off = some r ∧ ∀ v s, writeReg r v s = accessError s := by
  simp only [List.mem_cons, List.not_mem_nil, or_false] at h
  obtain e | e | e | e | e | e | e | e := h
  · exact ⟨.id, regAt_of_offset e, fun _ _ => rfl⟩
  · exact ⟨.nzcnt, regAt_of_offset e, fun _ _ => rfl⟩
  · exact ⟨.sadLo, regAt_of_offset e, fun _ _ => rfl⟩
  · exact ⟨.sadHi, regAt_of_offset e, fun _ _ => rfl⟩
  · exact ⟨.sseLo, regAt_of_offset e, fun _ _ => rfl⟩
  · exact ⟨.sseHi, regAt_of_offset e, fun _ _ => rfl⟩
  · exact ⟨.satdLo, regAt_of_offset e, fun _ _ => rfl⟩
  · exact ⟨.satdHi, regAt_of_offset e, fun _ _ => rfl⟩

/-- QP and the elements of the blocks are the registers whose writes a command in flight drops (R54). -/
theorem regAt_droppedInFlight (ha : off.val % 4 = 0) (h : off.val = 0x10 ∨ 0x40 ≤ off.val) :
    ∃ r, regAt off = some r ∧ ∀ v s, ∃ t, writeReg r v s = unlessInFlight s t := by
  obtain e | h := h
  · exact ⟨.qp, regAt_of_offset e, fun _ _ => ⟨_, rfl⟩⟩
  rw [regAt, if_neg (by omega)]
  split
  · exact ⟨_, rfl, fun _ _ => ⟨_, rfl⟩⟩
  split
  · exact ⟨_, rfl, fun _ _ => ⟨_, rfl⟩⟩
  · exact ⟨_, rfl, fun _ _ => ⟨_, rfl⟩⟩

/-- Settles O35: a bad access reaches no register, a read-only register refuses the write, a command in flight drops it. -/
theorem badAccessesAndBusyWritesOnlyRecord : Obligations.BadAccessesAndBusyWritesOnlyRecord := by
  refine ⟨fun s off size rest hr hbad => ⟨fun h => ?_, fun v h => ?_⟩, fun s off v rest hr ho h => ?_,
    fun s off v rest hr ha ho hp h => ?_⟩
  · rw [step_of_read hr h, hostRead, target_of_bad hbad, record_eq, respond]
  · rw [step_of_write hr h, hostWrite, target_of_bad hbad, accessError_eq]
  · obtain ⟨r, hreg, hw⟩ := regAt_readOnly ho
    rw [step_of_write_reg hr h hreg, hw, accessError_eq]
  · obtain ⟨r, hreg, hw⟩ := regAt_droppedInFlight ha ho
    obtain ⟨t, ht⟩ := hw v { s with inputs := rest }
    rw [step_of_write_reg hr h hreg, ht, unlessInFlight_of_busy (s := { s with inputs := rest }) hp,
      acceptWrite, respond]

/-! ### Writes that take effect -/

/-- Writing one to bits 1 and 2 of STATUS clears the flags there (10_state.md R22). -/
theorem statusWrite_eq (v : Word) (s : State) : statusWrite v s = { s with
    done := s.done && !v.getLsbD 1, err := s.err && !v.getLsbD 2
    errcode := if v.getLsbD 2 then .noError else s.errcode } := by
  have hclear (b flag : Bool) : (if b then false else flag) = (flag && !b) := by cases b <;> simp
  rw [statusWrite, hclear, hclear]

/-- With no command in flight, a write that one would drop takes effect (R54). -/
theorem step_of_write_idle {t : State} (hr : s.inReset = false) (h : s.inputs = .write off 4 v :: rest)
    (hp : s.pend = none) (ho : off.val = r.offset)
    (hw : writeReg r v { s with inputs := rest } = unlessInFlight { s with inputs := rest } t) :
    step s = .next (acceptWrite t) := by
  rw [step_of_write_reg hr h (regAt_of_offset ho), hw, unlessInFlight_of_idle (s := { s with inputs := rest }) hp]

/-- Settles O36, register by register. -/
theorem goodWritesStoreTheirRegister : Obligations.GoodWritesStoreTheirRegister := by
  intro s off v rest hr h
  refine ⟨fun e => ?_, fun e => ?_, fun hp => ⟨fun e => ?_, fun i => ⟨fun e => ?_, fun e => ?_, fun e => ?_⟩⟩⟩
  · rw [step_of_write_reg hr h (regAt_of_offset (r := .status) e), writeReg, statusWrite_eq, acceptWrite, respond]
  · exact step_of_write_reg hr h (regAt_of_offset (r := .ctrl) e)
  · obtain rfl : off = 0x10 := Fin.ext e
    exact step_of_write_qp_idle hr h hp
  · exact step_of_write_idle hr h hp (r := .a i) e rfl
  · exact step_of_write_idle hr h hp (r := .b i) e rfl
  · exact step_of_write_idle hr h hp (r := .w i) e rfl

/-! ### Reads while no command is in flight -/

theorem unlessBusy_of_idle (hp : s.pend = none) (o : Option Word) : unlessBusy s o = o :=
  if_neg (by simp [hp])

/-- The low half of an accumulator as a number (10_state.md R31). -/
theorem acc_low_eq (x : Acc64) : x.extractLsb' 0 32 = BitVec.ofNat 32 x.toNat := rfl

/-- The high half of an accumulator as a number (10_state.md R31). -/
theorem acc_high_eq (x : Acc64) : x.extractLsb' 32 32 = BitVec.ofNat 32 (x.toNat / 2 ^ 32) :=
  congrArg (BitVec.ofNat 32) (Nat.shiftRight_eq_div_pow ..)

/-- The read of a result register or of an element, with no command in flight, answers what `regValue` guards. -/
theorem step_of_read_idle (hr : s.inReset = false) (h : s.inputs = .read off 4 :: rest) (hp : s.pend = none)
    (ho : off.val = r.offset) (hv : regValue r { s with inputs := rest } = unlessBusy { s with inputs := rest } (some v)) :
    step s = .next { s with inputs := rest, outputs := s.outputs ++ [.readData v false] } :=
  step_of_read_value hr h (regAt_of_offset ho) (hv.trans (unlessBusy_of_idle (s := { s with inputs := rest }) hp _))

/-- The read of an element of a block, with no command in flight: its word, or a draw if it is unwritten (R191). -/
theorem step_of_read_element {e : Elem} (hr : s.inReset = false) (h : s.inputs = .read off 4 :: rest) (hp : s.pend = none)
    (ho : off.val = r.offset) (hv : regValue r { s with inputs := rest } = unlessBusy { s with inputs := rest } e.word?) :
    (∀ v, e = .written v →
      step s = .next { s with inputs := rest, outputs := s.outputs ++ [.readData v false] }) ∧
    (e = .unwritten → step s = .next { s with
      draws := s.draws + 1, inputs := rest
      outputs := s.outputs ++ [.readData ((Config.draw s.draws).setWidth 32) false] }) := by
  refine ⟨?_, ?_⟩
  · rintro v rfl
    exact step_of_read_idle hr h hp ho hv
  · rintro rfl
    have hnone := hv.trans (unlessBusy_of_idle (s := { s with inputs := rest }) hp _)
    exact (step_of_read_reg hr h (regAt_of_offset ho)).trans (congrArg _ (readReg_of_unspecified hnone))

/-- Settles O38, register by register. -/
theorem readsReturnTheRegisterMap : Obligations.ReadsReturnTheRegisterMap := by
  intro s off rest hr h hp
  refine ⟨fun e => ?_, fun e => ?_, fun e => ?_, fun e => ?_, fun e => ?_, fun e => ?_, fun e => ?_, fun e => ?_,
    fun e => ?_, fun e => ?_, fun e => ?_, fun e => ?_, fun i => ⟨fun e => ?_, fun e => ?_, fun e => ?_⟩⟩
  · exact step_of_read_value hr h (regAt_of_offset (r := .id) e) rfl
  · exact step_of_read_value hr h (regAt_of_offset (r := .cmd) e) rfl
  · exact step_of_read_value hr h (regAt_of_offset (r := .status) e) rfl
  · obtain rfl : off = 0x0C := Fin.ext e
    exact step_of_read_ctrl hr h
  · obtain rfl : off = 0x10 := Fin.ext e
    exact step_of_read_qp hr h
  · rw [BitVec.ofNat_toNat]
    exact step_of_read_idle hr h hp (r := .nzcnt) e rfl
  · rw [← acc_low_eq]
    exact step_of_read_idle hr h hp (r := .sadLo) e rfl
  · rw [← acc_high_eq]
    exact step_of_read_idle hr h hp (r := .sadHi) e rfl
  · rw [← acc_low_eq]
    exact step_of_read_idle hr h hp (r := .sseLo) e rfl
  · rw [← acc_high_eq]
    exact step_of_read_idle hr h hp (r := .sseHi) e rfl
  · rw [← acc_low_eq]
    exact step_of_read_idle hr h hp (r := .satdLo) e rfl
  · rw [← acc_high_eq]
    exact step_of_read_idle hr h hp (r := .satdHi) e rfl
  · exact step_of_read_element hr h hp (r := .a i) e rfl
  · exact step_of_read_element hr h hp (r := .b i) e rfl
  · exact step_of_read_element hr h hp (r := .w i) e rfl

/-! ### The two halves of an accumulator -/

/-- The halves that the two registers of an accumulator read make the accumulator (R56). -/
theorem acc_high_append_low (x : Acc64) : x.extractLsb' 32 32 ++ x.extractLsb' 0 32 = x :=
  (BitVec.extractLsb'_append_extractLsb'_eq_extractLsb' rfl).trans BitVec.extractLsb'_eq_self

/-- Two reads, one after the other and with no command in flight, of the halves of x. -/
theorem run_of_read_halves {lo hi : Fin 256} {rlo rhi : Reg} {x : Acc64} (hr : s.inReset = false) (hp : s.pend = none)
    (h : s.inputs = .read lo 4 :: .read hi 4 :: rest) (hlo : lo.val = rlo.offset) (hhi : hi.val = rhi.offset)
    (hl : ∀ inputs outputs, regValue rlo { s with inputs := inputs, outputs := outputs } =
      unlessBusy { s with inputs := inputs, outputs := outputs } (some (x.extractLsb' 0 32)))
    (hh : ∀ inputs outputs, regValue rhi { s with inputs := inputs, outputs := outputs } =
      unlessBusy { s with inputs := inputs, outputs := outputs } (some (x.extractLsb' 32 32))) :
    ∃ u lo hi, core.run 2 s = .next u ∧ u.outputs = s.outputs ++ [.readData lo false, .readData hi false] ∧
      hi ++ lo = x := by
  have hfirst := step_of_read_idle hr h hp hlo (hl _ _)
  have hsecond := step_of_read_idle (s := { s with
    inputs := .read hi 4 :: rest, outputs := s.outputs ++ [.readData (x.extractLsb' 0 32) false] }) hr rfl hp hhi (hh _ _)
  exact ⟨_, _, _, run_succ hfirst (run_succ hsecond rfl), List.append_assoc .., acc_high_append_low x⟩

/-- Settles O49, by `run_of_read_halves` for each accumulator. -/
theorem accumulatorHalvesMakeOneValue : Obligations.AccumulatorHalvesMakeOneValue := by
  intro s rest hr hp
  refine ⟨fun h => ?_, fun h => ?_, fun h => ?_⟩
  · exact run_of_read_halves hr hp h (rlo := .sadLo) (rhi := .sadHi) rfl rfl (fun _ _ => rfl) fun _ _ => rfl
  · exact run_of_read_halves hr hp h (rlo := .sseLo) (rhi := .sseHi) rfl rfl (fun _ _ => rfl) fun _ _ => rfl
  · exact run_of_read_halves hr hp h (rlo := .satdLo) (rhi := .satdHi) rfl rfl (fun _ _ => rfl) fun _ _ => rfl

end Sys2Proof.Machine
end

section
/-! What the decoder answers (30_encoding.md R70 to R77): a command exactly on the words with well-formed fields, and then
the command that the fields name. -/

namespace Sys2Proof

variable {w : Word} {i : Instr} {f : CmdFields}

/-- The three checks of R76 on the numbers that the fields hold. -/
theorem CmdFields.wellFormed_iff : f.wellFormed = true ↔
    f.rsv = 0 ∧ f.opc.toNat < 0xA ∧ (f.acc = true → f.opc.toNat ∈ [0x1, 0x6, 0x7, 0x8]) := by
  have hacc : f.accOk = true ↔ (f.acc = true → f.opc.toNat ∈ [0x1, 0x6, 0x7, 0x8]) := by
    cases ha : f.acc <;> simp [CmdFields.accOk, ha, ← BitVec.toNat_inj, or_assoc]
  simp [CmdFields.wellFormed, CmdFields.rsvOk, CmdFields.opcOk, hacc, and_assoc]

theorem Instr.opcode_lt (i : Instr) : i.opcode < 2 ^ 4 := by
  cases i <;> simp [Instr.opcode]

theorem fields_opc_toNat (i : Instr) : i.fields.opc.toNat = i.opcode := Nat.mod_eq_of_lt i.opcode_lt

theorem eq_fields (hrsv : f.rsv = 0) (hopc : f.opc.toNat = i.opcode) (hacc : f.acc = i.accBit) : f = i.fields := by
  obtain ⟨opc, acc, rsv⟩ := f
  obtain rfl : opc = i.fields.opc := BitVec.eq_of_toNat_eq (hopc.trans (fields_opc_toNat i).symm)
  obtain rfl : acc = i.accBit := hacc
  obtain rfl : rsv = 0 := hrsv
  rfl

/-- What the decoder can answer: the command with the word's fields, or Illegal where a check of R76 fails. -/
theorem decode_cases (w : Word) :
    (∃ i, decode w = .cmd i ∧ fieldsOfWord w = i.fields) ∨
    (∃ r, decode w = .illegal r ∧ (fieldsOfWord w).wellFormed = false) := by
  unfold decode
  generalize fieldsOfWord w = f
  dsimp only
  split
  next hrsv => exact .inr ⟨_, rfl, Bool.eq_false_iff.2 fun h => hrsv (CmdFields.wellFormed_iff.1 h).1⟩
  next hrsv =>
    replace hrsv : f.rsv = 0 := Classical.not_not.1 hrsv
    split
    next hacc =>
      obtain ⟨ha, -, hmem⟩ := hacc
      exact .inr ⟨_, rfl, Bool.eq_false_iff.2 fun h => hmem ((CmdFields.wellFormed_iff.1 h).2.2 ha)⟩
    next hacc =>
      have accClear : f.opc.toNat < 0xA → f.opc.toNat ∉ [0x1, 0x6, 0x7, 0x8] → f.acc = false := fun hlt hmem =>
        Bool.eq_false_iff.2 fun ha => hacc ⟨ha, hlt, hmem⟩
      split
      case h_11 => -- OPC is none of 0x0 to 0x9
        refine .inr ⟨_, rfl, Bool.eq_false_iff.2 fun h => ?_⟩
        have hlt : f.opc.toNat < 0xA := (CmdFields.wellFormed_iff.1 h).2.1
        simp only [imp_false] at *
        omega
      case h_2 | h_7 | h_8 | h_9 => exact .inl ⟨_, rfl, eq_fields hrsv ‹_› rfl⟩
      -- the commands without ACC
      all_goals exact .inl ⟨_, rfl, eq_fields hrsv ‹_› (accClear (by omega) (by simp [*]))⟩

/-- The fields of a word that decodes are those of its command. -/
theorem fieldsOfWord_of_decode (h : decode w = .cmd i) : fieldsOfWord w = i.fields := by
  obtain ⟨j, hj, hfields⟩ | ⟨r, hr, -⟩ := decode_cases w
  · cases h.symm.trans hj
    exact hfields
  · cases h.symm.trans hr

theorem encode_of_decode (h : decode w = .cmd i) : encode i = w :=
  word_ext ((fieldsOfWord_wordOfFields _).trans (fieldsOfWord_of_decode h).symm)

/-- Settles O3: the fields of a word that decodes are its command's, and a word is known by its fields. -/
theorem decodeAndEncodeAgree : Obligations.DecodeAndEncodeAgree := ⟨decode_encode, fun _ _ => encode_of_decode⟩

theorem exists_illegal_iff_not_cmd : (∃ r, decode w = .illegal r) ↔ ∀ i, decode w ≠ .cmd i := by
  cases decode w <;> simp

theorem exists_illegal_iff_wellFormed : (∃ r, decode w = .illegal r) ↔ (fieldsOfWord w).wellFormed = false := by
  obtain ⟨i, hi, hfields⟩ | ⟨r, hr, hbad⟩ := decode_cases w
  · simp [hi, hfields, fields_wellFormed]
  · simp [hr, hbad]

theorem rsv_eq_zero_iff (w : Word) : (fieldsOfWord w).rsv = 0 ↔ w.toNat / 2 ^ 5 = 0 := by
  rw [← rsv_toNat, ← BitVec.toNat_inj]
  rfl

/-- Settles O2, by the decoder's cases and the numbers that the fields of a word hold. -/
theorem decodeChecksRsvOpcAndAcc : Obligations.DecodeChecksRsvOpcAndAcc := by
  refine fun w => ⟨?_, fun i h => ?_⟩
  · rw [exists_illegal_iff_wellFormed, ← Bool.not_eq_true, CmdFields.wellFormed_iff, rsv_eq_zero_iff, opc_toNat, acc_eq,
      decide_eq_true_iff, Classical.not_and_iff_not_or_not,
      Classical.not_and_iff_not_or_not, Nat.not_lt, Classical.not_imp]
  · rw [← opc_toNat, ← acc_eq, fieldsOfWord_of_decode h]
    exact ⟨(fields_opc_toNat i).symm, rfl⟩

/-- The 14 words of R77 are all the words that commands have. -/
theorem encode_mem (i : Instr) : encode i ∈ [0x00#32, 0x01#32, 0x11#32, 0x02#32, 0x03#32, 0x04#32, 0x05#32, 0x06#32,
    0x16#32, 0x07#32, 0x17#32, 0x08#32, 0x18#32, 0x09#32] := by
  cases i with
  | nop | fdct | had | quant | dequant | clracc => decide
  | resid acc | sumabs acc | satd acc | satddct acc => cases acc <;> decide

/-- Settles O1: each of the words is a command's encoding, and a word of a command is one of them. -/
theorem fourteenWordsAreLegal : Obligations.FourteenWordsAreLegal :=
  ⟨decode_encode .nop, decode_encode (.resid false), decode_encode (.resid true), decode_encode .fdct, decode_encode .had,
    decode_encode .quant, decode_encode .dequant, decode_encode (.sumabs false), decode_encode (.sumabs true),
    decode_encode (.satd false), decode_encode (.satd true), decode_encode (.satddct false), decode_encode (.satddct true),
    decode_encode .clracc, fun _ hw => exists_illegal_iff_not_cmd.2 fun i h => hw (encode_of_decode h ▸ encode_mem i)⟩

/-- A table row with a command's word reads as that command. -/
theorem decodeTableWord_encode (i : Instr) : decodeTableWord 32 (encode i).toNat = some i := by
  have hword : tableWord 32 (encode i).toNat = encode i := Machine.tableWord_toNat _
  rw [decodeTableWord, hword, decode_encode]
  rfl

/-- Settles O4: the first four words are encodings of commands; the last is FDCT's with ACC set. -/
theorem tableWordsDecode : Obligations.TableWordsDecode :=
  ⟨decodeTableWord_encode .fdct, decodeTableWord_encode .quant, decodeTableWord_encode (.resid true),
    decodeTableWord_encode .clracc, by decide⟩

end Sys2Proof
end

section
/-! What a CMD write does to a word of each OPC, the errors of every command rule (60_exceptions.md R161, R165). -/

namespace Sys2Proof.Machine

variable {s : State} {v : Word}

theorem commandWrite_of_busy (hp : s.pend ≠ none) :
    commandWrite v s = { s with err := true, errcode := if s.err then s.errcode else .busy } := by
  rw [commandWrite, if_pos ((busy_eq_true s).mpr hp), record_eq]

theorem commandWrite_of_illegal (hp : s.pend = none) (hd : ∀ i, decode v ≠ .cmd i) : commandWrite v s =
    { s with err := true, errcode := if s.err then s.errcode else .illegalCmd, done := true } := by
  obtain ⟨r, hr⟩ := exists_illegal_iff_not_cmd.mpr hd
  rw [commandWrite, if_neg (by simp [hp]), hr, ← reject_eq]

theorem commandWrite_of_accepted {i : Instr} (hp : s.pend = none) (hd : decode v = .cmd i)
    (hq : ¬(i.usesQp = true ∧ Config.qpMax < s.qp.toNat)) : commandWrite v s = launch v s := by
  rw [commandWrite, if_neg (by simp [hp]), hd]
  exact if_neg hq

/-- The OPC of a word that decodes is its command's (30_encoding.md R71). -/
theorem opcode_of_decode {i : Instr} (hd : decode v = .cmd i) : i.opcode = v.toNat % 2 ^ 4 :=
  ((decodeChecksRsvOpcAndAcc v).2 i hd).1

/-- The "Errors" line of the command rules, for every OPC. -/
theorem commandWriteOutcome (opc : Nat) : CommandWriteOutcome opc := by
  intro s v rest hr hopc hi
  have hstep : step s = .next (acceptWrite (commandWrite v { s with inputs := rest })) :=
    step_of_write_reg hr hi (r := .cmd) rfl
  refine ⟨fun hp => ?busy, fun hp hd => ?illegal, fun i hp hd => ?_⟩
  case busy =>
    rw [hstep, commandWrite_of_busy (s := { s with inputs := rest }) hp]
    rfl
  case illegal =>
    rw [hstep, commandWrite_of_illegal (s := { s with inputs := rest }) hp hd]
    rfl
  obtain rfl : i.opcode = opc := (opcode_of_decode hd).trans hopc
  rw [← usesQp_iff]
  refine ⟨fun ⟨hu, hq⟩ => ?qpRange, fun hq => ?launched⟩
  case qpRange => exact step_of_write_cmd_qpRange hr hi hp hq hd ((usesQp_iff i).mp hu)
  case launched =>
    rw [hstep, commandWrite_of_accepted (s := { s with inputs := rest }) hp hd hq]
    rfl

end Sys2Proof.Machine
end

section
/-! The arithmetic of the transforms on exact integers (40_transform.md R104, R105): each fact is proved of a butterfly on
one row or column, and then of the rows and columns of a block. -/

namespace Sys2Proof.Machine

/-! ### Linearity -/

theorem sum4_mul_left (a : Int) (x : Fin 4 → Int) : (sum4 fun c => a * x c) = a * sum4 x := by
  simp only [sum4, Int.mul_add]

theorem mat_add (m : Vector (Vector Int 4) 4) (x y : Fin 16 → Int) (i : Fin 16) :
    mat m (fun j => x j + y j) i = mat m x i + mat m y i := by
  simp only [mat, sum4, Int.mul_add, Int.add_mul]
  omega

theorem mat_mul_left (m : Vector (Vector Int 4) 4) (a : Int) (x : Fin 16 → Int) (i : Fin 16) :
    mat m (fun j => a * x j) i = a * mat m x i := by
  simp only [mat, Int.mul_assoc, Int.mul_left_comm _ a, sum4_mul_left]

/-- The product modulo 2^32 depends on the elements only modulo 2^32. -/
theorem low32_mat_congr (m : Vector (Vector Int 4) 4) {x y : Fin 16 → Int} (h : ∀ i, low32 (x i) = low32 (y i))
    (i : Fin 16) : low32 (mat m x i) = low32 (mat m y i) := by
  simp only [mat, sum4, BitVec.ofInt_add, BitVec.ofInt_mul, h]

/-- FDCT is linear modulo 2^32 (R104 (c)). -/
theorem fdctWords_add (x y : Fin 16 → Word) (i : Fin 16) :
    fdctWords (fun j => (x j + y j).toInt) i = fdctWords (fun j => (x j).toInt) i + fdctWords (fun j => (y j).toInt) i := by
  have hsum (j : Fin 16) : low32 (x j + y j).toInt = low32 ((x j).toInt + (y j).toInt) := by
    simp only [BitVec.ofInt_add, BitVec.ofInt_toInt]
  calc low32 (mat Config.matC (fun j => (x j + y j).toInt) i)
      = low32 (mat Config.matC (fun j => (x j).toInt + (y j).toInt) i) := low32_mat_congr _ hsum i
    _ = low32 (mat Config.matC (fun j => (x j).toInt) i) + low32 (mat Config.matC (fun j => (y j).toInt) i) := by
      rw [mat_add]
      exact BitVec.ofInt_add ..

/-! ### Rows and columns -/

theorem rowOf_elemAt (r c : Fin 4) : rowOf (elemAt r c) = r := by
  apply Fin.ext
  simp only [rowOf, elemAt]
  omega

theorem colOf_elemAt (r c : Fin 4) : colOf (elemAt r c) = c := by
  apply Fin.ext
  simp only [colOf, elemAt]
  omega

theorem elemAt_rowOf_colOf (i : Fin 16) : elemAt (rowOf i) (colOf i) = i := by
  apply Fin.ext
  simp only [rowOf, colOf, elemAt]
  omega

theorem sum16_eq_sum4 (x : Fin 16 → Int) : sum16 x = sum4 fun r => sum4 fun c => x (elemAt r c) := by
  show _ = x 0 + x 1 + x 2 + x 3 + (x 4 + x 5 + x 6 + x 7) + (x 8 + x 9 + x 10 + x 11) + (x 12 + x 13 + x 14 + x 15)
  rw [sum16]
  omega

theorem sum4_comm (g : Fin 4 → Fin 4 → Int) : (sum4 fun a => sum4 fun b => g a b) = sum4 fun b => sum4 fun a => g a b := by
  simp only [sum4]
  omega

theorem sum4_le {x : Fin 4 → Int} {a : Int} (h : ∀ c, x c ≤ a) : sum4 x ≤ 4 * a := by
  have h₀ := h 0
  have h₁ := h 1
  have h₂ := h 2
  have h₃ := h 3
  rw [sum4]
  omega

theorem sum16_le {x : Fin 16 → Int} {a : Int} (h : ∀ i, x i ≤ a) : sum16 x ≤ 16 * a := by
  rw [sum16_eq_sum4]
  calc (sum4 fun r => sum4 fun c => x (elemAt r c))
      ≤ 4 * (4 * a) := sum4_le fun _ => sum4_le fun _ => h _
    _ = 16 * a := by omega

/-! ### Constant blocks -/

theorem fwdButterfly_const (k : Int) (j : Fin 4) : fwdButterfly (fun _ => k) j = if j = 0 then 4 * k else 0 := by
  match j with
  | 0 | 1 | 2 | 3 => simp only [fwdButterfly, Fin.isValue, Fin.reduceEq, reduceIte]; omega

theorem hadButterfly_const (k : Int) (j : Fin 4) : hadButterfly (fun _ => k) j = if j = 0 then 4 * k else 0 := by
  match j with
  | 0 | 1 | 2 | 3 => simp only [hadButterfly, Fin.isValue, Fin.reduceEq, reduceIte]; omega

theorem rowsThenColumns_const {f : (Fin 4 → Int) → Fin 4 → Int}
    (hf : ∀ k j, f (fun _ => k) j = if j = 0 then 4 * k else 0) (k : Int) (i : Fin 16) :
    rowsThenColumns f (fun _ => k) i = if i = 0 then 16 * k else 0 := by
  have hi : i = 0 ↔ rowOf i = 0 ∧ colOf i = 0 := by decide +revert
  simp only [rowsThenColumns, hf, hi]
  by_cases hr : rowOf i = 0
  · by_cases hc : colOf i = 0
    · simp only [hr, hc, and_self, if_true]
      omega
    · simp only [hr, hc, and_false, if_true, if_false, Int.mul_zero]
  · simp only [hr, false_and, if_false]

/-! ### Bounds -/

theorem natAbs_fwdButterfly_le {x : Fin 4 → Int} {m : Nat} (h : ∀ c, (x c).natAbs ≤ m) (k : Fin 4) :
    (fwdButterfly x k).natAbs ≤ 6 * m := by
  have h₀ := h 0
  have h₁ := h 1
  have h₂ := h 2
  have h₃ := h 3
  match k with
  | 0 | 1 | 2 | 3 => simp only [fwdButterfly]; omega

theorem natAbs_hadButterfly_le {x : Fin 4 → Int} {m : Nat} (h : ∀ c, (x c).natAbs ≤ m) (k : Fin 4) :
    (hadButterfly x k).natAbs ≤ 4 * m := by
  have h₀ := h 0
  have h₁ := h 1
  have h₂ := h 2
  have h₃ := h 3
  match k with
  | 0 | 1 | 2 | 3 => simp only [hadButterfly]; omega

/-- R105's bound on the exact result of FDCT. -/
theorem natAbs_mat_matC_le {x : Fin 16 → Int} {m : Nat} (h : ∀ i, (x i).natAbs ≤ m) (i : Fin 16) :
    (mat Config.matC x i).natAbs ≤ 36 * m := by
  rw [(matrixProductsAreButterflies x).1]
  calc (rowsThenColumns fwdButterfly x i).natAbs
      ≤ 6 * (6 * m) := natAbs_fwdButterfly_le (fun _ => natAbs_fwdButterfly_le (fun _ => h _) _) _
    _ = 36 * m := by omega

/-- The exact result of HAD, halved toward zero (R103). -/
def halvedHad (x : Fin 16 → Int) : Fin 16 → Int := fun i => (mat Config.matH x i).tdiv 2

/-- R105's bound on the exact result of HAD. -/
theorem natAbs_halvedHad_le {x : Fin 16 → Int} {m : Nat} (h : ∀ i, (x i).natAbs ≤ m) (i : Fin 16) :
    (halvedHad x i).natAbs ≤ 8 * m := by
  have hmat : (mat Config.matH x i).natAbs ≤ 4 * (4 * m) := by
    rw [(matrixProductsAreButterflies x).2]
    exact natAbs_hadButterfly_le (fun _ => natAbs_hadButterfly_le (fun _ => h _) _) _
  have hhalf : (halvedHad x i).natAbs = (mat Config.matH x i).natAbs / 2 := Int.natAbs_tdiv _ 2
  omega

/-- A value of magnitude below 2^31 survives its narrowing. -/
theorem toInt_low32_of_natAbs_lt {v : Int} (h : v.natAbs < 2 ^ 31) : (low32 v).toInt = v :=
  toInt_low32 (by omega) (by omega)

/-! ### HAD twice

Let H · X · Hᵀ = 2 · Z + R, with Z what HAD leaves and R the remainder of its halving. As H · H = 4, twice H · Z · Hᵀ is
16 · X less H · R · Hᵀ; and every element of R is 0 if the element sum is even, and 1 or -1 if it is odd. -/

theorem hadButterfly_hadButterfly (x : Fin 4 → Int) (k : Fin 4) : hadButterfly (hadButterfly x) k = 4 * x k := by
  match k with
  | 0 | 1 | 2 | 3 => simp only [hadButterfly]; omega

theorem hadButterfly_mul_left (a : Int) (x : Fin 4 → Int) (k : Fin 4) :
    hadButterfly (fun c => a * x c) k = a * hadButterfly x k := by
  simp only [hadButterfly_eq_sum4, Int.mul_left_comm _ a, sum4_mul_left]

/-- Rows and columns may be transformed in either order. -/
theorem hadButterfly_comm (g : Fin 4 → Fin 4 → Int) (j k : Fin 4) :
    hadButterfly (fun c => hadButterfly (fun r => g r c) j) k =
      hadButterfly (fun r => hadButterfly (fun c => g r c) k) j := by
  simp only [hadButterfly_eq_sum4, ← sum4_mul_left]
  rw [sum4_comm]
  exact congrArg sum4 (funext fun _ => congrArg sum4 (funext fun _ => Int.mul_left_comm ..))

/-- H · (H · X · Hᵀ) · Hᵀ = 16 · X. -/
theorem mat_matH_mat_matH (x : Fin 16 → Int) (i : Fin 16) : mat Config.matH (mat Config.matH x) i = 16 * x i := by
  rw [(matrixProductsAreButterflies _).2, (matrixProductsAreButterflies x).2]
  simp only [rowsThenColumns, rowOf_elemAt, colOf_elemAt, hadButterfly_comm _ _ (colOf i), hadButterfly_hadButterfly,
    hadButterfly_mul_left, elemAt_rowOf_colOf]
  omega

theorem sum4_hadButterfly_mul_self (x : Fin 4 → Int) :
    (sum4 fun k => hadButterfly x k * hadButterfly x k) = 4 * sum4 fun c => x c * x c := by
  simp only [sum4, hadButterfly]
  grind

/-- The sum of the squares of H · X · Hᵀ is 16 times that of X. -/
theorem sumSquares_mat_matH (x : Fin 16 → Int) : sumSquares (mat Config.matH x) = 16 * sumSquares x := by
  rw [(matrixProductsAreButterflies x).2, sumSquares, sumSquares, sum16_eq_sum4, sum16_eq_sum4, sum4_comm]
  simp only [rowsThenColumns, rowOf_elemAt, colOf_elemAt, sum4_hadButterfly_mul_self, sum4_mul_left]
  rw [sum4_comm]
  simp only [sum4_hadButterfly_mul_self, sum4_mul_left]
  omega

theorem hadButterfly_emod_two (x : Fin 4 → Int) (k : Fin 4) : hadButterfly x k % 2 = sum4 x % 2 := by
  match k with
  | 0 | 1 | 2 | 3 => simp only [hadButterfly, sum4]; omega

/-- Every element of H · X · Hᵀ has the parity of the element sum. -/
theorem mat_matH_emod_two (x : Fin 16 → Int) (i : Fin 16) : mat Config.matH x i % 2 = sum16 x % 2 := by
  have hrow (r : Fin 4) := hadButterfly_emod_two (fun c => x (elemAt r c)) (colOf i)
  rw [(matrixProductsAreButterflies x).2, rowsThenColumns, hadButterfly_emod_two, sum16_eq_sum4]
  have h₀ := hrow 0
  have h₁ := hrow 1
  have h₂ := hrow 2
  have h₃ := hrow 3
  simp only [sum4] at *
  omega

/-- What the halving of HAD drops. -/
def hadRemainder (x : Fin 16 → Int) : Fin 16 → Int := fun i => (mat Config.matH x i).tmod 2

theorem natAbs_hadRemainder (x : Fin 16 → Int) (i : Fin 16) :
    ((hadRemainder x i).natAbs : Int) = sum16 x % 2 := by
  have habs : (hadRemainder x i).natAbs = (mat Config.matH x i).natAbs % 2 := Int.natAbs_tmod _ 2
  rw [habs, ← mat_matH_emod_two x i]
  omega

/-- Twice what HAD makes of its own result, before the second halving, and H · R · Hᵀ add up to 16 · X. -/
theorem two_mul_mat_halvedHad (x : Fin 16 → Int) (i : Fin 16) :
    2 * mat Config.matH (halvedHad x) i + mat Config.matH (hadRemainder x) i = 16 * x i := by
  rw [← mat_mul_left, ← mat_add, ← mat_matH_mat_matH]
  congr 1
  funext j
  exact Int.mul_tdiv_add_tmod _ 2

theorem natAbs_sub_two_mul_tdiv_two (a : Int) : (a - 2 * a.tdiv 2).natAbs ≤ 1 := by
  have hdiv := Int.mul_tdiv_add_tmod a 2
  have hmod : (a.tmod 2).natAbs = a.natAbs % 2 := Int.natAbs_tmod a 2
  omega

/-- HAD twice, on exact values, is 4 · X exactly when the element sum is even (R104 (d)). -/
theorem halvedHad_halvedHad_iff (x : Fin 16 → Int) :
    (∀ i, halvedHad (halvedHad x) i = 4 * x i) ↔ sum16 x % 2 = 0 := by
  constructor
  · intro h
    -- were R all of ±1, the squares in H · R · Hᵀ would add up to 256, and none of them is above 4
    refine Decidable.byContradiction fun hodd => ?_
    have hsq (i : Fin 16) : hadRemainder x i * hadRemainder x i = 1 := by
      have habs := natAbs_hadRemainder x i
      rw [← Int.natAbs_mul_self, show (hadRemainder x i).natAbs = 1 by omega]
      rfl
    have hsmall (i : Fin 16) :
        mat Config.matH (hadRemainder x) i * mat Config.matH (hadRemainder x) i ≤ (2 * 2 : Nat) := by
      have hsum := two_mul_mat_halvedHad x i
      have hrest := natAbs_sub_two_mul_tdiv_two (mat Config.matH (halvedHad x) i)
      have hhalf : (mat Config.matH (halvedHad x) i).tdiv 2 = 4 * x i := h i
      rw [hhalf] at hrest
      have hle : (mat Config.matH (hadRemainder x) i).natAbs ≤ 2 := by omega
      rw [← Int.natAbs_mul_self]
      exact Int.ofNat_le.mpr (Nat.mul_le_mul hle hle)
    have henergy := sumSquares_mat_matH (hadRemainder x)
    simp only [sumSquares, hsq] at henergy
    exact absurd (henergy ▸ sum16_le hsmall) (by decide)
  · intro heven i
    have hrem : hadRemainder x = fun _ => 0 := funext fun j => by
      have habs := natAbs_hadRemainder x j
      omega
    have hzero : mat Config.matH (fun _ => 0) i = 0 := by
      simp only [mat, sum4, Int.mul_zero, Int.zero_mul, Int.add_zero]
    have hsum := two_mul_mat_halvedHad x i
    rw [hrem, hzero] at hsum
    have hmat : mat Config.matH (halvedHad x) i = 2 * (4 * x i) := by omega
    rw [halvedHad, hmat]
    exact Int.mul_tdiv_cancel_left _ (by decide)

end Sys2Proof.Machine
end

section
/-! FDCT and HAD on a written W (40_transform.md R101, R103 to R105). -/

namespace Sys2Proof.Machine

variable {s : State} {x : Fin 16 → Word}

theorem exec_fdct_of_written (h : ∀ i : Fin 16, s.w[i] = .written (x i)) :
    exec .fdct s = .next (complete { s with w := blockOf (fdctWords fun i => (x i).toInt) }) :=
  exec_fdct_of_read (readBlock_of_written h)

theorem exec_had_of_written (h : ∀ i : Fin 16, s.w[i] = .written (x i)) :
    exec .had s = .next (complete { s with w := blockOf (hadWords fun i => (x i).toInt) }) :=
  exec_had_of_read (readBlock_of_written h)

/-- Settles O12: the CMD write is `commandWriteOutcome`, and W reads as its signed words. -/
theorem fdctWritesTheForwardTransform : Obligations.FdctWritesTheForwardTransform :=
  ⟨rfl, commandWriteOutcome 0x2, fun _ _ h => exec_fdct_of_written h⟩

/-- Settles O13: the CMD write is `commandWriteOutcome`, and W reads as its signed words. -/
theorem hadWritesTheHalvedHadamard : Obligations.HadWritesTheHalvedHadamard :=
  ⟨rfl, commandWriteOutcome 0x3, fun _ _ h => exec_had_of_written h⟩

/-! ### Constant blocks and sums -/

theorem fdctWords_const (k : Int) (i : Fin 16) : fdctWords (fun _ => k) i = if i = 0 then low32 (16 * k) else 0 := by
  rw [fdctWords, (matrixProductsAreButterflies _).1, rowsThenColumns_const fwdButterfly_const]
  split <;> rfl

theorem hadWords_const (k : Int) (i : Fin 16) : hadWords (fun _ => k) i = if i = 0 then low32 (8 * k) else 0 := by
  rw [hadWords, (matrixProductsAreButterflies _).2, rowsThenColumns_const hadButterfly_const]
  split
  · rw [show 16 * k = 2 * (8 * k) by omega, Int.mul_tdiv_cancel_left _ (by decide)]
  · rfl

/-- Settles O23: the transforms of a constant block, and the linearity of FDCT, element by element. -/
theorem transformsOfZeroConstantAndSum : Obligations.TransformsOfZeroConstantAndSum := by
  refine ⟨fun s k h hlo hhi => ?_, fun s s' s'' t t' t'' x y hx hy hxy ht ht' ht'' i p q hp hq => ?_⟩
  · have hk : (fun _ : Fin 16 => (low32 k).toInt) = fun _ => k := funext fun _ => toInt_low32 hlo hhi
    refine ⟨⟨_, exec_fdct_of_written h, ?_, fun i hi => ?_⟩, ⟨_, exec_had_of_written h, ?_, fun i hi => ?_⟩⟩
    · exact (blockOf_getElem _ 0).trans (by rw [hk, fdctWords_const, if_pos rfl])
    · exact (blockOf_getElem _ i).trans (by rw [hk, fdctWords_const, if_neg hi])
    · exact (blockOf_getElem _ 0).trans (by rw [hk, hadWords_const, if_pos rfl])
    · exact (blockOf_getElem _ i).trans (by rw [hk, hadWords_const, if_neg hi])
  · cases (exec_fdct_of_written hx).symm.trans ht
    cases (exec_fdct_of_written hy).symm.trans ht'
    cases (exec_fdct_of_written hxy).symm.trans ht''
    cases (blockOf_getElem _ i).symm.trans hp
    cases (blockOf_getElem _ i).symm.trans hq
    exact (blockOf_getElem _ i).trans (congrArg _ (fdctWords_add x y i))

/-! ### HAD twice, and the ranges -/

theorem toInt_hadWords {x : Fin 16 → Int} {m : Nat} (h : ∀ i, (x i).natAbs ≤ m) (hm : m ≤ 268435455) (i : Fin 16) :
    (hadWords x i).toInt = halvedHad x i := by
  have hle := natAbs_halvedHad_le h i
  exact toInt_low32_of_natAbs_lt (v := halvedHad x i) (by omega)

theorem toInt_fdctWords {x : Fin 16 → Int} {m : Nat} (h : ∀ i, (x i).natAbs ≤ m) (hm : m ≤ 59652323) (i : Fin 16) :
    (fdctWords x i).toInt = mat Config.matC x i := by
  have hle := natAbs_mat_matC_le h i
  exact toInt_low32_of_natAbs_lt (by omega)

/-- HAD twice on words, neither application wrapping (R104 (d)). -/
theorem hadWords_hadWords_iff {x : Fin 16 → Int} (h : ∀ i, (x i).natAbs ≤ 33554431) :
    (∀ i, hadWords (fun j => (hadWords x j).toInt) i = low32 (4 * x i)) ↔ sum16 x % 2 = 0 := by
  have hfirst : (fun j => (hadWords x j).toInt) = halvedHad x := funext (toInt_hadWords h (by decide))
  have hsecond := toInt_hadWords (natAbs_halvedHad_le h) (by decide)
  rw [hfirst, ← halvedHad_halvedHad_iff x]
  refine forall_congr' fun i => ?_
  have hfour : (low32 (4 * x i)).toInt = 4 * x i := toInt_low32_of_natAbs_lt (by have := h i; omega)
  rw [← BitVec.toInt_inj, hsecond, hfour]

/-- Settles O24: both applications answer, and `hadWords_hadWords_iff` is about what the second leaves. -/
theorem hadTwiceIsFourfoldIffSumEven : Obligations.HadTwiceIsFourfoldIffSumEven := by
  intro s x hw hx
  refine ⟨_, _, exec_had_of_written hw, exec_had_of_written (blockOf_getElem _), ?_⟩
  rw [← hadWords_hadWords_iff hx]
  refine forall_congr' fun i => ?_
  rw [complete_w, blockOf_getElem, Elem.written.injEq]

/-- Settles O25: the bounds are those of the butterflies, and a value within 31 bits is written as it is. -/
theorem transformRangesWithoutWrap : Obligations.TransformRangesWithoutWrap := by
  intro s x m hw hx
  refine ⟨fun i => ⟨natAbs_mat_matC_le hx i, natAbs_halvedHad_le hx i⟩, fun hm => ?fdct, fun hm => ?had, fun hm => by omega⟩
  case fdct =>
    refine ⟨_, exec_fdct_of_written hw, fun i => ⟨_, blockOf_getElem _ i, toInt_fdctWords hx hm i, ?_⟩⟩
    rw [toInt_fdctWords hx hm]
    exact natAbs_mat_matC_le hx i
  case had =>
    refine ⟨_, exec_had_of_written hw, fun i => ⟨_, blockOf_getElem _ i, toInt_hadWords hx hm i, ?_⟩⟩
    rw [toInt_hadWords hx hm]
    exact natAbs_halvedHad_le hx i

end Sys2Proof.Machine
end

section
/-! The tables of the quantizer and the arithmetic of one level on exact integers (41_quant.md R110 to R114). -/

namespace Sys2Proof.Machine

/-! ### Position classes and tables -/

theorem posClass_eq_bothEven {i : Fin 16} (hr : i.val / 4 % 2 = 0) (hc : i.val % 4 % 2 = 0) : posClass i = .bothEven :=
  if_pos ⟨hr, hc⟩

theorem posClass_eq_bothOdd {i : Fin 16} (hr : i.val / 4 % 2 = 1) (hc : i.val % 4 % 2 = 1) : posClass i = .bothOdd := by
  have hnotEven : ¬((rowOf i).val % 2 = 0 ∧ (colOf i).val % 2 = 0) := fun h => absurd (hr.symm.trans h.1) (by decide)
  rw [posClass, if_neg hnotEven]
  exact if_pos ⟨hr, hc⟩

theorem posClass_eq_mixed {i : Fin 16} (h : i.val / 4 % 2 ≠ i.val % 4 % 2) : posClass i = .mixed := by
  have hnotEven : ¬((rowOf i).val % 2 = 0 ∧ (colOf i).val % 2 = 0) := fun he => h (he.1.trans he.2.symm)
  have hnotOdd : ¬((rowOf i).val % 2 = 1 ∧ (colOf i).val % 2 = 1) := fun ho => h (ho.1.trans ho.2.symm)
  rw [posClass, if_neg hnotEven, if_neg hnotOdd]

/-- Settles O32: the class of each kind of position selects the column, and the default tables are evaluated. -/
theorem tablesFollowPositionClasses : Obligations.TablesFollowPositionClasses := by
  refine ⟨fun p qp i => ⟨fun hr hc => ?_, fun hr hc => ?_, fun h => ?_, rfl⟩, by decide, by decide, by decide⟩
  · rw [mf, dq, posClass_eq_bothEven hr hc]
    exact ⟨rfl, rfl⟩
  · rw [mf, dq, posClass_eq_bothOdd hr hc]
    exact ⟨rfl, rfl⟩
  · rw [mf, dq, posClass_eq_mixed h]
    exact ⟨rfl, rfl⟩

/-- Every default rounding offset is a third of 2^qbits, rounded down (R112). -/
theorem default_qoff (qp : Fin 52) : Params.default.qoff[qp] = 2 ^ (15 + qp.val / 6) / 3 :=
  Vector.getElem_ofFn qp.isLt

/-- Settles O33: a third of 2^qbits is below it, and the nine values are evaluated. -/
theorem defaultRoundingOffsets : Obligations.DefaultRoundingOffsets := by
  refine ⟨fun qp => ?_, default_qoff, by decide⟩
  rw [default_qoff]
  exact Nat.div_lt_self (Nat.two_pow_pos _) (by decide)

theorem classValue_default_mft_le (r : Fin 6) (c : PosClass) : classValue Params.default.mft[r] c ≤ 13107 := by
  cases c with
  | bothEven | bothOdd | mixed => decide +revert

/-- The default multipliers are at most the first of row 0 (R114 (c)). -/
theorem mf_le {p : Params} (hmft : p.mft = Params.default.mft) (qp : Nat) (i : Fin 16) : mf p qp i ≤ 13107 := by
  rw [mf, hmft]
  exact classValue_default_mft_le _ _

/-! ### One level -/

section
variable {p : Params} {qp : Nat} {i : Fin 16} {c d : Int}

/-- R114 (b). -/
theorem level_mono (h : c.natAbs ≤ d.natAbs) : level p qp i c ≤ level p qp i d :=
  Nat.div_le_div_right (Nat.add_le_add_right (Nat.mul_le_mul_right _ h) _)

/-- The sign is discarded (R113). -/
theorem level_congr (h : c.natAbs = d.natAbs) : level p qp i c = level p qp i d := by
  rw [level, h, level]

/-- R114 (e). -/
theorem level_eq_zero_iff : level p qp i c = 0 ↔ c.natAbs * mf p qp i + qoff p qp < 2 ^ qbits qp :=
  Nat.div_eq_zero_iff_lt (Nat.two_pow_pos _)

/-- R114 (d). -/
theorem level_zero (hp : p.wf) (hqp : qp < 52) : level p qp i 0 = 0 :=
  level_eq_zero_iff.mpr (by simpa using qoff_lt hp hqp)

theorem qbits_le (hqp : qp < 52) : qbits qp ≤ 31 := by
  rw [qbits]
  omega

/-- R114 (c): 2^31 * 13107 is a multiple of 2^qbits, and the rounding offset is below 2^qbits. -/
theorem level_le (hmft : p.mft = Params.default.mft) (hp : p.wf) (hqp : qp < 52) (hc : c.natAbs ≤ 2 ^ 31) :
    level p qp i c ≤ 2 ^ (31 - qbits qp) * 13107 := by
  refine Nat.le_of_lt_succ ((Nat.div_lt_iff_lt_mul (Nat.two_pow_pos _)).mpr ?_)
  calc c.natAbs * mf p qp i + qoff p qp
      < 2 ^ 31 * 13107 + 2 ^ qbits qp := Nat.add_lt_add_of_le_of_lt (Nat.mul_le_mul hc (mf_le hmft qp i)) (qoff_lt hp hqp)
    _ = (2 ^ (31 - qbits qp) * 13107 + 1) * 2 ^ qbits qp := by
      rw [Nat.add_mul, Nat.mul_right_comm, Nat.pow_sub_mul_pow 2 (qbits_le hqp), Nat.one_mul]

/-- The largest bound of R114 (c) is that of qbits = 15. -/
theorem level_le_max (hmft : p.mft = Params.default.mft) (hp : p.wf) (hqp : qp < 52) (hc : c.natAbs ≤ 2 ^ 31) :
    level p qp i c ≤ 858980352 := by
  have hpow : 2 ^ (31 - qbits qp) ≤ 2 ^ 16 := Nat.pow_le_pow_right (by decide) (by rw [qbits]; omega)
  calc level p qp i c
      ≤ 2 ^ (31 - qbits qp) * 13107 := level_le hmft hp hqp hc
    _ ≤ 2 ^ 16 * 13107 := Nat.mul_le_mul_right _ hpow

end

/-- The magnitude of a signed word; -2^31 is taken as 2^31 (R113). -/
theorem natAbs_toInt_le (x : Word) : x.toInt.natAbs ≤ 2 ^ 31 := by
  have hlo := x.le_toInt
  have hhi := x.toInt_lt
  omega

/-! ### The levels of a block -/

theorem nonzeroCount_eq_length_filter (l : Fin 16 → Nat) :
    nonzeroCount l = ((List.finRange 16).filter fun i => l i ≠ 0).length := by
  have hpred : (fun i => l i != 0) = fun i => decide (l i ≠ 0) := funext fun i => Bool.eq_iff_iff.mpr (by simp)
  rw [nonzeroCount, List.countP_eq_length_filter, hpred]

section
variable {l : Fin 16 → Nat} {i : Fin 16}

theorem toNat_levelWords (h : l i < 2 ^ 32) : (levelWords l i).toNat = l i := by
  rw [levelWords, BitVec.toNat_ofNat, Nat.mod_eq_of_lt h]

theorem levelWords_eq_zero_iff (h : l i < 2 ^ 32) : levelWords l i = 0 ↔ l i = 0 := by
  rw [← BitVec.toNat_inj, toNat_levelWords h]
  rfl

theorem toInt_levelWords_nonneg (h : l i < 2 ^ 31) : 0 ≤ (levelWords l i).toInt := by
  have hword : (levelWords l i).toNat = l i := toNat_levelWords (by omega)
  rw [BitVec.toInt_eq_toNat_of_lt (by omega)]
  exact Int.natCast_nonneg _

end

/-- No level of a word wraps (R113). -/
theorem levels_lt {p : Params} {qp : Nat} (hmft : p.mft = Params.default.mft) (hp : p.wf) (hqp : qp < 52)
    (x : Fin 16 → Word) (i : Fin 16) : levels p qp (fun j => (x j).toInt) i < 2 ^ 31 :=
  Nat.lt_of_le_of_lt (level_le_max hmft hp hqp (natAbs_toInt_le (x i))) (by decide)

end Sys2Proof.Machine
end

section
/-! QUANT and DEQUANT on a written W (41_quant.md R113, R114, R116). -/

namespace Sys2Proof.Machine

variable {s : State} {x : Fin 16 → Word}

theorem exec_quant_of_written (h : ∀ i : Fin 16, s.w[i] = .written (x i)) :
    exec .quant s = .next (complete { s with
      w := blockOf (levelWords (levels s.params s.qp.toNat fun i => (x i).toInt))
      nzcnt := BitVec.ofNat 5 (nonzeroCount (levels s.params s.qp.toNat fun i => (x i).toInt)) }) :=
  exec_quant_of_read (readBlock_of_written h)

theorem exec_dequant_of_written (h : ∀ i : Fin 16, s.w[i] = .written (x i)) :
    exec .dequant s = .next (complete { s with w := blockOf (dequantWords s.params s.qp.toNat fun i => (x i).toInt) }) :=
  exec_dequant_of_read (readBlock_of_written h)

/-- What QUANT leaves in an element of a written W. -/
theorem getElem_w_of_exec_quant {t : State} (h : ∀ i : Fin 16, s.w[i] = .written (x i)) (ht : exec .quant s = .next t)
    (i : Fin 16) : t.w[i] = .written (levelWords (levels s.params s.qp.toNat fun j => (x j).toInt) i) := by
  cases (exec_quant_of_written h).symm.trans ht
  exact blockOf_getElem _ i

/-- Settles O14: the CMD write is `commandWriteOutcome`, and the levels are those of a QP with a rounding offset. -/
theorem quantWritesLevelsAndTheirCount : Obligations.QuantWritesLevelsAndTheirCount := by
  refine ⟨rfl, commandWriteOutcome 0x4, fun s x hqp h => ?_⟩
  rw [exec_quant_of_written h, nonzeroCount_eq_length_filter, levels_of_lt s.params hqp]
  rfl

/-- Settles O15: the CMD write is `commandWriteOutcome`, and W reads as its signed words. -/
theorem dequantWritesRescaledLevels : Obligations.DequantWritesRescaledLevels :=
  ⟨rfl, commandWriteOutcome 0x5, fun _ _ _ h => exec_dequant_of_written h⟩

/-- Settles O26: a word that QUANT writes is its level, which `level_le` bounds. -/
theorem quantLevelsAreBounded : Obligations.QuantLevelsAreBounded := by
  intro s x hqp h hmft hp
  refine ⟨_, exec_quant_of_written h, fun i => ⟨_, blockOf_getElem _ i, ?_⟩⟩
  have hlt := levels_lt hmft hp hqp x i
  have hword := toNat_levelWords (Nat.lt_trans hlt (by decide))
  have hzero := levelWords_eq_zero_iff (Nat.lt_trans hlt (by decide))
  have hmag := natAbs_toInt_le (x i)
  refine ⟨toInt_levelWords_nonneg hlt, Nat.le_trans (Nat.le_of_eq hword) (level_le hmft hp hqp hmag),
    Nat.le_trans (Nat.le_of_eq hword) (level_le_max hmft hp hqp hmag), fun hx => hzero.mpr ?ofZero, hzero.trans ?zeroIff⟩
  case ofZero =>
    rw [levels, hx]
    exact level_zero hp hqp
  case zeroIff =>
    rw [levels, level_eq_zero_iff, qoff_of_lt _ hqp, qbits]

/-- Settles O27: words that QUANT writes are ordered as their levels. -/
theorem quantIsMonotoneInMagnitude : Obligations.QuantIsMonotoneInMagnitude := by
  intro s s' t t' x y hqps hqp hparams hmft hp hx hy ht ht' i p q hi hi'
  have hq := getElem_w_of_exec_quant hy ht' i
  rw [← hqps, ← hparams] at hq
  cases (getElem_w_of_exec_quant hx ht i).symm.trans hi
  cases hq.symm.trans hi'
  refine ⟨fun hle => ?_, fun heq => ?_⟩
  · have hlt (z : Fin 16 → Word) := Nat.lt_trans (levels_lt hmft hp hqp z i) (by decide : 2 ^ 31 < 2 ^ 32)
    rw [toNat_levelWords (hlt x), toNat_levelWords (hlt y)]
    exact level_mono hle
  · exact congrArg (BitVec.ofNat 32) (level_congr heq)

end Sys2Proof.Machine
end

section
/-! RESID, SUMABS, SATD and SATDDCT on written operands (42_distortion.md R130, R131, R133, R135 to R138). -/

namespace Sys2Proof.Machine

variable {s : State} {x y : Fin 16 → Word}

theorem exec_resid_of_written (acc : Bool) (ha : ∀ i : Fin 16, s.a[i] = .written (x i))
    (hb : ∀ i : Fin 16, s.b[i] = .written (y i)) :
    exec (.resid acc) s = .next (complete { s with
      w := blockOf fun i => low32 ((x i).toInt - (y i).toInt)
      sad := accumulate acc s.sad (sumAbs fun i => (x i).toInt - (y i).toInt)
      sse := accumulate acc s.sse (sumSquares fun i => (x i).toInt - (y i).toInt) }) :=
  exec_resid_of_read acc (readBlock_of_written ha) (readBlock_of_written hb)

theorem exec_sumabs_of_written (acc : Bool) (h : ∀ i : Fin 16, s.w[i] = .written (x i)) :
    exec (.sumabs acc) s = .next (complete { s with satd := accumulate acc s.satd (sumAbs fun i => (x i).toInt) }) :=
  exec_sumabs_of_read acc (readBlock_of_written h)

theorem exec_satd_of_written (acc : Bool) (h : ∀ i : Fin 16, s.w[i] = .written (x i)) :
    exec (.satd acc) s = .next (complete { s with
      w := blockOf (hadWords fun i => (x i).toInt)
      satd := accumulate acc s.satd (sumAbs fun i => (hadWords (fun j => (x j).toInt) i).toInt) }) :=
  exec_satd_of_read acc (readBlock_of_written h)

theorem exec_satddct_of_written (acc : Bool) (h : ∀ i : Fin 16, s.w[i] = .written (x i)) :
    exec (.satddct acc) s = .next (complete { s with
      w := blockOf (levelWords (fdctLevels s.params s.qp.toNat fun i => (x i).toInt))
      nzcnt := BitVec.ofNat 5 (nonzeroCount (fdctLevels s.params s.qp.toNat fun i => (x i).toInt))
      satd := accumulate acc s.satd
        (sumAbs fun i => (levelWords (fdctLevels s.params s.qp.toNat fun j => (x j).toInt) i).toInt) }) :=
  exec_satddct_of_read acc (readBlock_of_written h)

/-- Settles O11: the CMD write is `commandWriteOutcome`, and A and B read as their signed words. -/
theorem residWritesDifferenceSadAndSse : Obligations.ResidWritesDifferenceSadAndSse :=
  ⟨rfl, rfl, commandWriteOutcome 0x1, fun _ acc _ _ ha hb => exec_resid_of_written acc ha hb⟩

/-- Settles O16: the CMD write is `commandWriteOutcome`, and W reads as its signed words. -/
theorem sumabsAddsAbsoluteValues : Obligations.SumabsAddsAbsoluteValues :=
  ⟨rfl, rfl, commandWriteOutcome 0x6, fun _ acc _ h => exec_sumabs_of_written acc h⟩

/-- Settles O17: the CMD write is `commandWriteOutcome`, and W reads as its signed words. -/
theorem satdSumsTheHalvedHadamard : Obligations.SatdSumsTheHalvedHadamard :=
  ⟨rfl, rfl, commandWriteOutcome 0x7, fun _ acc _ h => exec_satd_of_written acc h⟩

/-- Levels below 2^31 are summed as they are (R137). -/
theorem sumAbs_levelWords {l : Fin 16 → Nat} (h : ∀ i, l i < 2 ^ 31) :
    (sumAbs fun i => (levelWords l i).toInt) = sum16 fun i => (l i : Int) :=
  congrArg sum16 (funext fun i => natAbs_levelWords (h i))

/-- Settles O18: the CMD write is `commandWriteOutcome`, and the levels are QUANT's of the words that FDCT would write. -/
theorem satddctTransformsQuantizesAndSums : Obligations.SatddctTransformsQuantizesAndSums := by
  refine ⟨rfl, rfl, commandWriteOutcome 0x8, fun s acc x hqp h => ?_⟩
  have hlevels := levels_of_lt s.params hqp fun i => (fdctWords (fun j => (x j).toInt) i).toInt
  refine ⟨?state, fun hl => sumAbs_levelWords hl, fun hmft hp i => ?bound⟩
  case state =>
    rw [exec_satddct_of_written acc h, nonzeroCount_eq_length_filter, fdctLevels, hlevels]
    rfl
  case bound =>
    have hlt := levels_lt hmft hp hqp (fdctWords fun j => (x j).toInt) i
    rw [hlevels] at hlt
    exact hlt

/-- Settles O19: with ACC = 1 the old accumulator is added to the low 64 bits of the sum, which ACC = 0 leaves. -/
theorem accAddsToTheOldAccumulator : Obligations.AccAddsToTheOldAccumulator := by
  refine ⟨fun s t u x y ha hb ht hu => ?resid, fun s t u x h =>
    ⟨fun ht hu => ?sumabs, fun ht hu => ?satd, fun ht hu => ?satddct⟩⟩
  case resid =>
    cases (exec_resid_of_written false ha hb).symm.trans ht
    cases (exec_resid_of_written true ha hb).symm.trans hu
    simp [accumulate_true]
  case sumabs =>
    cases (exec_sumabs_of_written false h).symm.trans ht
    cases (exec_sumabs_of_written true h).symm.trans hu
    simp [accumulate_true]
  case satd =>
    cases (exec_satd_of_written false h).symm.trans ht
    cases (exec_satd_of_written true h).symm.trans hu
    simp [accumulate_true]
  case satddct =>
    cases (exec_satddct_of_written false h).symm.trans ht
    cases (exec_satddct_of_written true h).symm.trans hu
    simp [accumulate_true]

/-! ### The fused commands -/

theorem exists_words_of_ne_unwritten {b : Block} (h : ∀ i : Fin 16, b[i] ≠ .unwritten) :
    ∃ x : Fin 16 → Word, ∀ i : Fin 16, b[i] = .written (x i) :=
  (block_cases b).resolve_right fun ⟨i, hi⟩ => h i hi

/-- Settles O30: SUMABS reads back the words that HAD wrote. -/
theorem satdIsHadThenSumabs : Obligations.SatdIsHadThenSumabs := by
  intro s acc hw
  obtain ⟨x, hx⟩ := exists_words_of_ne_unwritten hw
  exact ⟨_, _, exec_had_of_written hx, exec_sumabs_of_written acc (blockOf_getElem _), exec_satd_of_written acc hx⟩

/-- Settles O31: QUANT reads back the words that FDCT wrote, and SUMABS those that QUANT wrote. -/
theorem satddctIsFdctQuantThenSumabs : Obligations.SatddctIsFdctQuantThenSumabs := by
  intro s acc hw
  obtain ⟨x, hx⟩ := exists_words_of_ne_unwritten hw
  refine ⟨_, _, _, exec_fdct_of_written hx, exec_quant_of_written (blockOf_getElem _),
    exec_sumabs_of_written acc (blockOf_getElem _), ?_⟩
  -- the completions in between leave QP, the parameters and SATD as they are
  simp only [exec_satddct_of_written acc hx, fdctLevels, complete]

end Sys2Proof.Machine
end

section
/-! The sums of RESID, and what they say about A and B (42_distortion.md R131, R132). -/

namespace Sys2Proof.Machine

/-! ### Sums over a block -/

section
variable {f g d : Fin 16 → Int}

theorem sum4_mono {f g : Fin 4 → Int} (h : ∀ c, f c ≤ g c) : sum4 f ≤ sum4 g := by
  have h₀ := h 0
  have h₁ := h 1
  have h₂ := h 2
  have h₃ := h 3
  rw [sum4, sum4]
  omega

theorem sum4_eq_zero_iff {f : Fin 4 → Int} (h : ∀ c, 0 ≤ f c) : sum4 f = 0 ↔ ∀ c, f c = 0 := by
  have h₀ := h 0
  have h₁ := h 1
  have h₂ := h 2
  have h₃ := h 3
  rw [sum4]
  constructor
  · intro hsum c
    match c with
    | 0 | 1 | 2 | 3 => omega
  · intro hzero
    rw [hzero 0, hzero 1, hzero 2, hzero 3]
    rfl

theorem sum4_nonneg {f : Fin 4 → Int} (h : ∀ c, 0 ≤ f c) : 0 ≤ sum4 f := sum4_mono h

theorem sum16_mono (h : ∀ i, f i ≤ g i) : sum16 f ≤ sum16 g := by
  rw [sum16_eq_sum4, sum16_eq_sum4]
  exact sum4_mono fun _ => sum4_mono fun _ => h _

theorem sum16_nonneg (h : ∀ i, 0 ≤ f i) : 0 ≤ sum16 f := sum16_mono h

/-- Nonnegative terms add up to 0 only when each is 0: row by row, and in each row. -/
theorem sum16_eq_zero_iff (h : ∀ i, 0 ≤ f i) : sum16 f = 0 ↔ ∀ i, f i = 0 := by
  rw [sum16_eq_sum4, sum4_eq_zero_iff fun _ => sum4_nonneg fun _ => h _]
  constructor
  · intro hrows i
    have hrow := (sum4_eq_zero_iff fun _ => h _).mp (hrows (rowOf i)) (colOf i)
    rwa [elemAt_rowOf_colOf] at hrow
  · exact fun hzero r => (sum4_eq_zero_iff fun _ => h _).mpr fun c => hzero (elemAt r c)

theorem sumAbs_nonneg : 0 ≤ sumAbs d := sum16_nonneg fun _ => Int.natCast_nonneg _

theorem sumAbs_eq_zero_iff : sumAbs d = 0 ↔ ∀ i, d i = 0 :=
  (sum16_eq_zero_iff fun _ => Int.natCast_nonneg _).trans
    (forall_congr' fun _ => Int.natCast_eq_zero.trans Int.natAbs_eq_zero)

theorem int_mul_self_nonneg (a : Int) : 0 ≤ a * a := by
  rw [← Int.natAbs_mul_self]
  exact Int.natCast_nonneg _

theorem sumSquares_eq_zero_iff : sumSquares d = 0 ↔ ∀ i, d i = 0 :=
  (sum16_eq_zero_iff fun i => int_mul_self_nonneg (d i)).trans
    (forall_congr' fun _ => Int.mul_eq_zero.trans or_self_iff)

theorem sumAbs_le_sumSquares : sumAbs d ≤ sumSquares d :=
  sum16_mono fun i => by
    rw [← Int.natAbs_mul_self]
    exact Int.ofNat_le.mpr (Nat.le_mul_self _)

theorem sumSquares_nonneg : 0 ≤ sumSquares d := Int.le_trans sumAbs_nonneg sumAbs_le_sumSquares

theorem sumAbs_sub_comm (f g : Fin 16 → Int) : (sumAbs fun i => f i - g i) = sumAbs fun i => g i - f i :=
  congrArg sum16 (funext fun i => by rw [← Int.natAbs_neg, Int.neg_sub])

theorem sumSquares_sub_comm (f g : Fin 16 → Int) : (sumSquares fun i => f i - g i) = sumSquares fun i => g i - f i :=
  congrArg sum16 (funext fun i => by rw [← Int.neg_mul_neg, Int.neg_sub])

end

/-! ### The sums as accumulators -/

theorem toNat_low64 {v : Int} (h₀ : 0 ≤ v) (h : v < 2 ^ 64) : (low64 v).toNat = v.toNat := by
  rw [low64, BitVec.toNat_ofInt]
  exact congrArg Int.toNat (Int.emod_eq_of_lt h₀ h)

theorem low64_eq_zero_iff {v : Int} (h₀ : 0 ≤ v) (h : v < 2 ^ 64) : low64 v = 0 ↔ v = 0 := by
  rw [← BitVec.toNat_inj, toNat_low64 h₀ h]
  show v.toNat = 0 ↔ v = 0
  omega

/-- The exact sum of absolute differences of two blocks of words is below 2^64: SAD does not wrap with ACC = 0 (R131). -/
theorem sumAbs_toInt_sub_lt (x y : Fin 16 → Word) : (sumAbs fun i => (x i).toInt - (y i).toInt) < 2 ^ 64 := by
  have hterm (i : Fin 16) : (((x i).toInt - (y i).toInt).natAbs : Int) ≤ 2 ^ 32 := by
    have hx := natAbs_toInt_le (x i)
    have hy := natAbs_toInt_le (y i)
    omega
  calc (sumAbs fun i => (x i).toInt - (y i).toInt)
      ≤ 16 * 2 ^ 32 := sum16_le hterm
    _ < 2 ^ 64 := by decide

theorem toInt_sub_eq_zero_iff {v w : Word} : v.toInt - w.toInt = 0 ↔ v = w := by
  rw [Int.sub_eq_zero, BitVec.toInt_inj]

/-- Exchanging the operands negates the narrowed difference (R132). -/
theorem low32_sub_comm (a b : Int) : low32 (b - a) = -low32 (a - b) := by
  rw [← Int.neg_sub]
  exact BitVec.ofInt_neg

/-- Settles O28: SAD does not wrap and SSE is assumed not to, so each is its exact sum; the sums are 0 exactly when every
difference is, and depend on the differences only up to sign. -/
theorem residSumsAndSymmetry : Obligations.ResidSumsAndSymmetry := by
  intro s t u x y ha hb ht hu
  cases (exec_resid_of_written false ha hb).symm.trans ht
  cases (exec_resid_of_written (s := { s with a := s.b, b := s.a }) false hb ha).symm.trans hu
  simp only [complete_w, complete_sad, complete_sse, accumulate_false]
  have hsad := sumAbs_toInt_sub_lt x y
  refine ⟨?sadZero, ?sadSwap, ?sseSwap, fun i p q hp hq => ?wSwap, fun hsse => ⟨?sadLeSse, ?sseZero⟩⟩
  case sadZero => simp only [low64_eq_zero_iff sumAbs_nonneg hsad, sumAbs_eq_zero_iff, toInt_sub_eq_zero_iff]
  case sadSwap => rw [sumAbs_sub_comm]
  case sseSwap => rw [sumSquares_sub_comm]
  case wSwap =>
    cases (blockOf_getElem _ i).symm.trans hp
    cases (blockOf_getElem _ i).symm.trans hq
    exact low32_sub_comm _ _
  case sadLeSse =>
    rw [toNat_low64 sumAbs_nonneg hsad, toNat_low64 sumSquares_nonneg hsse]
    exact Int.toNat_le_toNat sumAbs_le_sumSquares
  case sseZero => simp only [low64_eq_zero_iff sumSquares_nonneg hsse, sumSquares_eq_zero_iff, toInt_sub_eq_zero_iff]

/-! ### SSE wraps -/

/-- Four differences of -2^31, whose squares add up to 2^64 (log entry 15). -/
def fourLeastWords : Fin 16 → Word := fun i => if i.val < 4 then 0x80000000#32 else 0

/-- Settles O29: A with four elements of -2^31 and B all zero. -/
theorem wrappedSseCanReadZero : Obligations.WrappedSseCanReadZero :=
  ⟨{ State.reset with a := blockOf fourLeastWords, b := blockOf fun _ => 0 }, _, fourLeastWords, fun _ => 0,
    blockOf_getElem _, blockOf_getElem _, ⟨0, by decide⟩,
    exec_resid_of_written false (blockOf_getElem _) (blockOf_getElem _), by decide, by decide⟩

end Sys2Proof.Machine
end

section
/-! NOP and CLRACC, and the accumulating commands after CLRACC (43_control.md R150, R152). -/

namespace Sys2Proof.Machine

variable {s : State}

/-- Settles O9: the CMD write is `commandWriteOutcome`, and the engine's turn is the completion alone. -/
theorem nopChangesOnlyStatus : Obligations.NopChangesOnlyStatus :=
  ⟨rfl, commandWriteOutcome 0x0, exec_nop⟩

/-! ### ACC on cleared accumulators -/

/-- An accumulator of 0 adds nothing, so ACC makes no difference to it (42_distortion.md R130). -/
theorem accumulate_zero (acc : Bool) (sum : Int) : accumulate acc 0 sum = low64 sum := by
  cases acc with
  | false => exact accumulate_false 0 sum
  | true => exact (accumulate_true 0 sum).trans (BitVec.zero_add _)

theorem exec_resid_of_cleared (acc : Bool) (hsad : s.sad = 0) (hsse : s.sse = 0) :
    exec (.resid acc) s = exec (.resid false) s := by
  simp only [exec_resid, hsad, hsse, accumulate_zero]

theorem exec_sumabs_of_cleared (acc : Bool) (h : s.satd = 0) : exec (.sumabs acc) s = exec (.sumabs false) s := by
  simp only [exec_sumabs, h, accumulate_zero]

theorem exec_satd_of_cleared (acc : Bool) (h : s.satd = 0) : exec (.satd acc) s = exec (.satd false) s := by
  simp only [exec_satd, h, accumulate_zero]

theorem exec_satddct_of_cleared (acc : Bool) (h : s.satd = 0) : exec (.satddct acc) s = exec (.satddct false) s := by
  simp only [exec_satddct, h, accumulate_zero]

/-- Settles O10: CLRACC leaves the accumulators at 0, where an ACC = 1 command starts from what ACC = 0 starts from. -/
theorem clraccClearsTheFourResults : Obligations.ClraccClearsTheFourResults := by
  refine ⟨rfl, commandWriteOutcome 0x9, exec_clracc, fun s t ht => ?_⟩
  cases (exec_clracc s).symm.trans ht
  exact ⟨exec_resid_of_cleared true rfl rfl, exec_sumabs_of_cleared true rfl, exec_satd_of_cleared true rfl,
    exec_satddct_of_cleared true rfl⟩

end Sys2Proof.Machine
end

section
/-! The invariant of the machine, kept by each operation and so by every step (60_exceptions.md R161, R165, R190), and the
one stop of the step (U15). -/

namespace Sys2Proof.Machine

variable {s t u : State}

/-! ### Operations that keep the invariant -/

theorem inv_setInputs (h : s.Inv) (l : List Event) : State.Inv { s with inputs := l } := { h with }

theorem respond_keeps_inv (h : s.Inv) (r : Response) : (respond r s).Inv := { h with }

theorem acceptWrite_keeps_inv (h : s.Inv) : (acceptWrite s).Inv := respond_keeps_inv h _

/-- An error that is recorded has a code of its own, and a code recorded before is kept (10_state.md R25). -/
theorem record_keeps_inv (h : s.Inv) {k : ErrCode} (hk : k ≠ .noError) : (record k s).Inv := by
  have hcode : (if s.err then s.errcode else k) ≠ .noError := by
    split
    · exact h.err_iff_code.mp ‹_›
    · exact hk
  rw [record_eq]
  exact { h with err_iff_code := iff_of_true rfl hcode }

/-- With no command in flight, only the flags, NZCNT and the parameters are constrained. -/
theorem inv_of_idle (hp : s.pend = none) (hc : s.err = true ↔ s.errcode ≠ .noError) (hn : s.nzcnt.toNat ≤ 16)
    (hw : s.params.wf) : s.Inv where
  pend_accepted _ hs := nomatch hp.symm.trans hs
  busy_not_done hb := absurd hp ((busy_eq_true s).mp hb)
  err_iff_code := hc
  nzcnt_le := hn
  reset_idle _ := hp
  params_wf := hw

theorem reject_keeps_inv (h : s.Inv) (hp : s.pend = none) {k : ErrCode} (hk : k ≠ .noError) : (reject k s).Inv :=
  have hr := record_keeps_inv h hk
  inv_of_idle ((record_pend k s).trans hp) hr.err_iff_code hr.nzcnt_le hr.params_wf

/-- A launch puts a checked word into PEND and clears DONE (60_exceptions.md R165). -/
theorem launch_keeps_inv (h : s.Inv) (hr : s.inReset = false) {v : Word} {i : Instr} (hd : decode v = .cmd i)
    (hq : i.usesQp = true → s.qp.toNat ≤ Config.qpMax) : (launch v s).Inv :=
  { h with
    pend_accepted := by
      rintro _ ⟨⟩
      exact ⟨i, hd, hq⟩
    busy_not_done := fun _ => rfl
    reset_idle := fun hres => nomatch hr.symm.trans hres }

/-- Clearing DONE is always allowed, and ERR is cleared together with its code (10_state.md R22). -/
theorem statusWrite_keeps_inv (h : s.Inv) (v : Word) : (statusWrite v s).Inv :=
  { h with
    busy_not_done := fun hb => by simp [h.busy_not_done hb]
    err_iff_code := by
      rw [statusWrite_err, statusWrite_errcode]
      split
      · simp
      · exact h.err_iff_code }

theorem complete_keeps_inv (h : s.Inv) (hc : OnlyResultsChange s u) : (complete u).Inv := by
  refine inv_of_idle rfl ?_ ?_ ?_
  · rw [complete_err, complete_errcode, hc.err, hc.errcode]
    exact h.err_iff_code
  · obtain hn | hn := hc.nzcnt
    · exact hn ▸ h.nzcnt_le
    · exact hn
  · exact hc.params ▸ h.params_wf

theorem resetAssert_keeps_inv (h : s.Inv) : (resetAssert s).Inv :=
  inv_of_idle rfl h.err_iff_code h.nzcnt_le h.params_wf

/-- The release gives every register its reset value, and keeps the parameters (R190, R192). -/
theorem resetRelease_keeps_inv (h : s.Inv) : (resetRelease s).Inv := by
  cases hr : s.inReset with
  | false => rwa [resetRelease_of_released s hr]
  | true =>
    rw [resetRelease_of_inReset s hr]
    exact inv_of_idle rfl (iff_of_false nofun fun hc => hc rfl) (Nat.zero_le 16) h.params_wf

/-! ### Events that keep the invariant -/

/-- A CMD write launches only what the invariant allows in PEND (R161). -/
theorem commandWrite_keeps_inv (h : s.Inv) (hr : s.inReset = false) (v : Word) : (commandWrite v s).Inv := by
  obtain ⟨-, e⟩ | ⟨hp, -, e⟩ | ⟨hp, -, e⟩ | ⟨-, ⟨i, hd, hq⟩, e⟩ := commandWrite_cases v s
  · exact e ▸ record_keeps_inv h nofun
  · exact e ▸ reject_keeps_inv h hp nofun
  · exact e ▸ reject_keeps_inv h hp nofun
  · exact e ▸ launch_keeps_inv h hr hd hq

theorem hostRead_keeps_inv (h : s.Inv) (off : Fin 256) (size : Nat) : (hostRead off size s).Inv := by
  obtain e | ⟨v, e⟩ | e := hostRead_cases off size s
  · exact e ▸ respond_keeps_inv (record_keeps_inv (k := .access) h nofun) _
  · exact e ▸ respond_keeps_inv h _
  · exact e ▸ { h with }

/-- QP changes only while no command is in flight (10_state.md R27), so one that uses QP keeps a QP in range. -/
theorem hostWrite_keeps_inv (h : s.Inv) (hr : s.inReset = false) (off : Fin 256) (size : Nat) (v : Word) :
    (hostWrite off size v s).Inv := by
  obtain e | ⟨-, -, e⟩ | ⟨-, -, e⟩ | e | ⟨-, e⟩ | ⟨hp, a, b, w, qp, e⟩ := hostWrite_cases off size v s
  · exact e ▸ respond_keeps_inv (record_keeps_inv (k := .access) h nofun) _
  · exact e ▸ acceptWrite_keeps_inv (commandWrite_keeps_inv h hr v)
  · exact e ▸ acceptWrite_keeps_inv (statusWrite_keeps_inv h v)
  · exact e ▸ { h with }
  · exact e ▸ acceptWrite_keeps_inv (record_keeps_inv h nofun)
  · exact e ▸ inv_of_idle hp h.err_iff_code h.nzcnt_le h.params_wf

theorem engineTurn_keeps_inv (h : s.Inv) (he : engineTurn s = .next t) : t.Inv := by
  obtain rfl | ⟨u, rfl, hc⟩ := engineTurn_eq_next he
  · exact h
  · exact complete_keeps_inv h hc

/-- Settles O53, by the form of the next event. -/
theorem everyStepKeepsTheInvariant : Obligations.EveryStepKeepsTheInvariant := by
  intro s t h hstep
  obtain ⟨-, e⟩ | ⟨ev, rest, -, e⟩ := step_cases s
  · exact engineTurn_keeps_inv h (e.symm.trans hstep)
  have h' := inv_setInputs h rest
  cases ev with
  | engine => exact engineTurn_keeps_inv h' (e.symm.trans hstep)
  | read off size =>
    obtain ⟨-, rfl⟩ := hostAccess_eq_next (e.symm.trans hstep)
    exact hostRead_keeps_inv h' off size
  | write off size v =>
    obtain ⟨hr, rfl⟩ := hostAccess_eq_next (e.symm.trans hstep)
    exact hostWrite_keeps_inv h' hr off size v
  | resetAssert =>
    cases e.symm.trans hstep
    exact resetAssert_keeps_inv h'
  | resetRelease =>
    cases e.symm.trans hstep
    exact resetRelease_keeps_inv h'

/-! ### Progress -/

/-- A command in flight is legal, so the engine's turn goes on (log entry 9). -/
theorem engineTurn_goes_on (h : s.Inv) : ∃ t, engineTurn s = .next t := by
  obtain ⟨-, e⟩ | ⟨w, i, -, -, e⟩ | ⟨w, r, hp, hd, -⟩ := engineTurn_cases s
  · exact ⟨s, e⟩
  · obtain ⟨u, hu, -⟩ := exec_completes i s
    exact ⟨complete u, e.trans hu⟩
  · obtain ⟨i, hi, -⟩ := h.pend_accepted w hp
    cases hd.symm.trans hi

/-- A host access is refused while reset is asserted, and answered otherwise (R190). -/
theorem hostAccess_cases (s t : State) :
    (s.inReset = true ∧ hostAccess s t = .refused .accessDuringReset) ∨
    (s.inReset = false ∧ hostAccess s t = .next t) := by
  unfold hostAccess
  cases s.inReset with
  | false => exact .inr ⟨rfl, rfl⟩
  | true => exact .inl ⟨rfl, rfl⟩

/-- A step that is a host access stops only under reset. -/
theorem step_cases_of_accessNext (ha : s.accessNext = true) (e : step s = hostAccess s t) :
    (s.inReset = true ∧ s.accessNext = true ∧ step s = .refused .accessDuringReset) ∨
    (¬(s.inReset = true ∧ s.accessNext = true) ∧ ∃ t, step s = .next t) := by
  rw [e]
  obtain ⟨hr, hx⟩ | ⟨hr, hx⟩ := hostAccess_cases s t
  · exact .inl ⟨hr, ha, hx⟩
  · exact .inr ⟨by simp [hr], t, hx⟩

/-- Settles O54, by the form of the next event: the engine's turn and the reset input go on. -/
theorem machineStopsOnlyOnAccessDuringReset : Obligations.MachineStopsOnlyOnAccessDuringReset := by
  intro s h
  obtain ⟨hi, e⟩ | ⟨ev, rest, hi, e⟩ := step_cases s
  · exact .inr ⟨by simp [State.accessNext, hi], e ▸ engineTurn_goes_on h⟩
  cases ev with
  | engine => exact .inr ⟨by simp [State.accessNext, hi], e ▸ engineTurn_goes_on (inv_setInputs h rest)⟩
  | read off size => exact step_cases_of_accessNext (by simp [State.accessNext, hi]) e
  | write off size v => exact step_cases_of_accessNext (by simp [State.accessNext, hi]) e
  | resetAssert => exact .inr ⟨by simp [State.accessNext, hi], _, e⟩
  | resetRelease => exact .inr ⟨by simp [State.accessNext, hi], _, e⟩

end Sys2Proof.Machine
end

section
/-! A write to CMD of any width, and the interrupt line (60_exceptions.md R161 to R165, R170). -/

namespace Sys2Proof.Machine

variable {s : State}

/-- Settles O34: a width other than 32 bits is a bad access, and `commandWriteOutcome` at the word's own OPC is the rest. -/
theorem commandWriteRejectsOrLaunches : Obligations.CommandWriteRejectsOrLaunches := by
  intro s v size rest hr hi
  refine ⟨fun hs => ?width, ?word⟩
  case width => exact (badAccessesAndBusyWritesOnlyRecord.1 s _ size rest hr (.inl hs)).2 v hi
  rintro rfl
  obtain ⟨hbusy, hillegal, hlegal⟩ := commandWriteOutcome _ s v rest hr rfl hi
  refine ⟨hbusy, hillegal, fun i hp hd hopc hq => ?qpRange, fun i hp hd hok => ?launched⟩
  case qpRange => exact (hlegal i hp hd).1 ⟨opcode_of_decode hd ▸ hopc, hq⟩
  case launched =>
    rw [opcode_of_decode hd] at hok
    exact (hlegal i hp hd).2 fun ⟨hopc, hq⟩ => hok.elim (absurd hopc) (Nat.not_le_of_lt hq)

/-! ### The interrupt line -/

theorem irq_iff : irq s = true ↔ s.ie = true ∧ (s.done = true ∨ s.err = true) := by
  rw [irq, Bool.and_eq_true, Bool.or_eq_true]

/-- With DONE or ERR set, IE alone decides the line. -/
theorem irq_eq_ie (h : s.done = true ∨ s.err = true) : irq s = s.ie :=
  Bool.eq_iff_iff.mpr (irq_iff.trans (and_iff_left h))

theorem irq_of_cleared (hd : s.done = false) (he : s.err = false) : irq s = false := by
  rw [irq, hd, he]
  exact Bool.and_false _

/-- Settles O46: a completion sets DONE and each rejection sets ERR; the two last writes clear the flags or IE. -/
theorem irqFollowsDoneAndErr : Obligations.IrqFollowsDoneAndErr := by
  refine ⟨fun s => irq_iff, fun i s t h => ?completion, fun s v rest hr hi hrej => ?rejection,
    fun s rest hr hi => ?clear, fun s v rest hr hi hv => ?disable⟩
  case completion =>
    obtain ⟨u, hu, hc⟩ := exec_completes i s
    cases hu.symm.trans h
    exact (irq_eq_ie (.inl rfl)).trans hc.ie
  case rejection =>
    obtain ⟨hbusy, hillegal, hqp, -⟩ := (commandWriteRejectsOrLaunches s v 4 rest hr hi).2 rfl
    by_cases hp : s.pend = none
    · obtain hb | hd | ⟨i, hd, hopc, hq⟩ := hrej
      · exact absurd hp hb
      · exact ⟨_, hillegal hp hd, irq_eq_ie (.inr rfl)⟩
      · exact ⟨_, hqp i hp hd hopc hq, irq_eq_ie (.inr rfl)⟩
    · exact ⟨_, hbusy hp, irq_eq_ie (.inr rfl)⟩
  case clear => exact ⟨_, step_of_write_reg hr hi (r := .status) rfl, irq_of_cleared rfl rfl⟩
  case disable =>
    refine ⟨_, step_of_write_ctrl hr hi, ?_⟩
    rw [irq, hv]
    exact Bool.false_and _

end Sys2Proof.Machine
end

section
/-! Commands on unwritten operands (70_reset_and_hazards.md R191, 93_implementation_defined.md U3). -/

namespace Sys2Proof.Machine

/-- RESID has no difference to take where A or B has an unwritten element. -/
theorem readDiff_of_unwritten {a b : Block} (h : ∃ i : Fin 16, a[i] = .unwritten ∨ b[i] = .unwritten) :
    readDiff a b = none := by
  obtain ha | hb := exists_or.mp h
  · rw [readDiff, readBlock_of_unwritten ha, Option.bind_none]
  · simp only [readDiff, readBlock_of_unwritten hb, Option.map_none, Option.bind_fun_none]

/-- Settles O20: each command's equation at operands that do not read. -/
theorem unwrittenOperandsGiveUnspecifiedResults : Obligations.UnwrittenOperandsGiveUnspecifiedResults := by
  refine fun s => ⟨fun hab acc => ?resid, fun hw => ?onW⟩
  case resid =>
    rw [exec_resid, readDiff_of_unwritten hab]
    rfl
  have hread := readBlock_of_unwritten hw
  refine ⟨?transforms, fun acc => ?sumabs, fun acc => ?satd⟩
  case transforms =>
    simp only [List.forall_mem_cons, exec_fdct, exec_had, exec_dequant, hread]
    exact ⟨rfl, rfl, rfl, List.forall_mem_nil _⟩
  case sumabs =>
    rw [exec_sumabs, hread]
    rfl
  case satd =>
    rw [exec_satd, hread]
    rfl

/-! ### Levels -/

/-- A drawn level is in the range of its table (U3). -/
theorem toNat_drawnLevel_le (p : Params) (d : Nat) : (BitVec.ofNat 32 (d % (levelMax p + 1))).toNat ≤ levelMax p :=
  Nat.le_trans (Nat.mod_le ..) (Nat.le_of_lt_succ (Nat.mod_lt _ (Nat.succ_pos _)))

/-- The largest level under the default multipliers (41_quant.md R114 (c)). -/
theorem levelMax_default {p : Params} (h : p.mft = Params.default.mft) : levelMax p = 858980352 := by
  rw [levelMax, h]
  decide

/-- Settles O21: each command's equation at a W that does not read, and the ranges of what it draws. -/
theorem unwrittenOperandLevelsStayInRange : Obligations.UnwrittenOperandLevelsStayInRange := by
  intro s hw
  have hread := readBlock_of_unwritten hw
  refine ⟨?quant, fun acc => ?satddct, drawnCount_le _, fun hmft j => ⟨_, blockOf_getElem _ j, ?bound⟩⟩
  case quant =>
    rw [exec_quant, hread]
    rfl
  case satddct =>
    rw [exec_satddct, hread]
    rfl
  case bound => exact levelMax_default hmft ▸ toNat_drawnLevel_le s.params _

end Sys2Proof.Machine
end

section
/-! The state after reset, and the reset input (70_reset_and_hazards.md R190, R192). -/

namespace Sys2Proof.Machine

variable {s : State} {rest : List Event}

theorem unwritten_getElem (i : Fin 16) : Block.unwritten[i] = .unwritten := Vector.getElem_replicate i.isLt

/-- Settles O50: no element of a block is written, and the registers are evaluated. -/
theorem resetStateIsAsListed : Obligations.ResetStateIsAsListed :=
  ⟨fun i => ⟨unwritten_getElem i, unwritten_getElem i, unwritten_getElem i⟩, by decide⟩

/-- Settles O52: no command is in flight, and the default rounding offsets meet R112. -/
theorem resetMeetsTheInvariant : Obligations.ResetMeetsTheInvariant :=
  inv_of_idle rfl (by decide) (Nat.zero_le 16) defaultRoundingOffsets.1

theorem step_of_resetAssert (h : s.inputs = .resetAssert :: rest) :
    step s = .next (resetAssert { s with inputs := rest }) := by
  simp only [step, h]

theorem step_of_resetRelease (h : s.inputs = .resetRelease :: rest) :
    step s = .next (resetRelease { s with inputs := rest }) := by
  simp only [step, h]

/-- Both host accesses are answered or refused by `hostAccess`. -/
theorem exists_hostAccess_of_accessNext (h : s.accessNext = true) : ∃ t, step s = hostAccess s t := by
  unfold State.accessNext at h
  split at h
  next hi => exact ⟨_, by rw [step, hi]⟩
  next hi => exact ⟨_, by rw [step, hi]⟩
  next => cases h

/-- Settles O51: the two reset events, and `hostAccess` under reset. -/
theorem resetInputAbandonsAndRestores : Obligations.ResetInputAbandonsAndRestores := by
  refine fun s rest => ⟨step_of_resetAssert, fun hr ha => ?_, fun hr h => ?_⟩
  · obtain ⟨t, e⟩ := exists_hostAccess_of_accessNext ha
    exact e.trans (if_pos hr)
  · exact (step_of_resetRelease h).trans (congrArg _ (resetRelease_of_inReset { s with inputs := rest } hr))

end Sys2Proof.Machine
end

section
/-! A write after the launch, in both orders with the completion (70_reset_and_hazards.md R194, 20_memory.md R60). -/

namespace Sys2Proof.Machine

variable {s t : State} {i : Instr}

/-- No command reads ERR, ERRCODE or the lists of events and answers, and none changes them (10_state.md R35). -/
theorem exec_of_error_inputs_outputs (h : exec i s = .next t) (err : Bool) (code : ErrCode) (ins : List Event)
    (outs : List Response) :
    exec i { s with err := err, errcode := code, inputs := ins, outputs := outs } =
      .next { t with err := err, errcode := code, inputs := ins, outputs := outs } := by
  cases i with
  | nop => cases (exec_nop s).symm.trans h; exact exec_nop _
  | resid acc => cases (exec_resid acc s).symm.trans h; exact exec_resid acc _
  | fdct => cases (exec_fdct s).symm.trans h; exact exec_fdct _
  | had => cases (exec_had s).symm.trans h; exact exec_had _
  | quant => cases (exec_quant s).symm.trans h; exact exec_quant _
  | dequant => cases (exec_dequant s).symm.trans h; exact exec_dequant _
  | sumabs acc => cases (exec_sumabs acc s).symm.trans h; exact exec_sumabs acc _
  | satd acc => cases (exec_satd acc s).symm.trans h; exact exec_satd acc _
  | satddct acc => cases (exec_satddct acc s).symm.trans h; exact exec_satddct acc _
  | clracc => cases (exec_clracc s).symm.trans h; exact exec_clracc _

/-- The engine's turn next, with a command in flight (10_state.md R32). -/
theorem step_of_engine_of_pend {rest : List Event} {c : Word} (h : s.inputs = .engine :: rest) (hp : s.pend = some c)
    (hd : decode c = .cmd i) : step s = exec i { s with inputs := rest } :=
  (step_of_engine h).trans (engineTurn_of_pend hp hd)

/-- Settles O48: the dropped write leaves what the command reads, and the completed command leaves PEND empty. -/
theorem writeAfterLaunchIsDroppedUntilCompletion : Obligations.WriteAfterLaunchIsDroppedUntilCompletion := by
  intro s c v i k off hr herr hp hd ho
  obtain ⟨t, ht, hc⟩ := exec_completes i { s with inputs := [] }
  refine ⟨fun hi => ?before, fun hi => ?after⟩
  case before =>
    have hwrite := badAccessesAndBusyWritesOnlyRecord.2.2 s off v [.engine] hr (by omega) (.inr (by omega))
      (fun hn => nomatch hp.symm.trans hn) hi
    rw [if_neg (by simp [herr])] at hwrite
    have hengine := (step_of_engine_of_pend (s := { s with
        err := true, errcode := .busy, inputs := [.engine], outputs := s.outputs ++ [.writeDone false] }) rfl hp hd).trans
      (exec_of_error_inputs_outputs ht true .busy [] _)
    exact ⟨_, _, ht, run_succ hwrite (run_succ hengine rfl), rfl, rfl, rfl, rfl, rfl, rfl, rfl, rfl⟩
  case after =>
    have hengine := (step_of_engine_of_pend hi hp hd).trans
      (exec_of_error_inputs_outputs ht s.err s.errcode [.write off 4 v] s.outputs)
    have hwrite := step_of_write_idle (s := { complete t with
        err := s.err, errcode := s.errcode, inputs := [.write off 4 v], outputs := s.outputs })
      (r := .w k) (hc.inReset.trans hr) rfl rfl ho rfl
    exact ⟨_, _, ht, run_succ hengine (run_succ hwrite rfl), rfl, rfl, rfl, rfl, rfl, herr, rfl⟩

end Sys2Proof.Machine
end

section
/-! With reset released the machine runs through its inputs: every access is answered once, and the engine completes the
last command (70_reset_and_hazards.md R195). -/

namespace Sys2Proof.Machine

variable {s t : State} {rest : List Event}

/-- From s to t the host gets n more answers; reset and the list of inputs stay as they are. -/
structure Answers (n : Nat) (s t : State) : Prop where
  inReset : t.inReset = s.inReset
  inputs : t.inputs = s.inputs
  outputs : t.outputs.length = s.outputs.length + n

theorem Answers.respond (h : Answers 0 s t) (r : Response) : Answers 1 s (respond r t) :=
  ⟨h.inReset, h.inputs, by simp [h.outputs]⟩

theorem record_answers (k : ErrCode) (s : State) : Answers 0 s (record k s) := by
  rw [record_eq]
  exact ⟨rfl, rfl, rfl⟩

theorem commandWrite_answers (v : Word) (s : State) : Answers 0 s (commandWrite v s) := by
  obtain ⟨-, e⟩ | ⟨-, -, e⟩ | ⟨-, -, e⟩ | ⟨-, -, e⟩ := commandWrite_cases v s
  · exact e ▸ record_answers .busy s
  · exact e ▸ reject_eq .illegalCmd s ▸ ⟨rfl, rfl, rfl⟩
  · exact e ▸ reject_eq .qpRange s ▸ ⟨rfl, rfl, rfl⟩
  · exact e ▸ ⟨rfl, rfl, rfl⟩

/-- A read is answered once. -/
theorem hostRead_answers (off : Fin 256) (size : Nat) (s : State) : Answers 1 s (hostRead off size s) := by
  obtain e | ⟨v, e⟩ | e := hostRead_cases off size s
  · exact e ▸ (record_answers .access s).respond _
  · exact e ▸ ⟨rfl, rfl, List.length_append⟩
  · exact e ▸ ⟨rfl, rfl, List.length_append⟩

/-- A write is answered once, a refused or dropped one too. -/
theorem hostWrite_answers (off : Fin 256) (size : Nat) (v : Word) (s : State) :
    Answers 1 s (hostWrite off size v s) := by
  obtain e | ⟨-, -, e⟩ | ⟨-, -, e⟩ | e | ⟨-, e⟩ | ⟨-, a, b, w, qp, e⟩ := hostWrite_cases off size v s
  · exact e ▸ (record_answers .access s).respond _
  · exact e ▸ (commandWrite_answers v s).respond _
  · exact e ▸ ⟨rfl, rfl, List.length_append⟩
  · exact e ▸ ⟨rfl, rfl, List.length_append⟩
  · exact e ▸ (record_answers .busy s).respond _
  · exact e ▸ ⟨rfl, rfl, List.length_append⟩

/-- The engine's turn goes on, answers nothing, and leaves no command in flight. -/
theorem engineTurn_answers (h : s.Inv) : ∃ t, engineTurn s = .next t ∧ Answers 0 s t ∧ t.pend = none := by
  obtain ⟨hp, e⟩ | ⟨w, i, -, -, e⟩ | ⟨w, r, hp, hd, -⟩ := engineTurn_cases s
  · exact ⟨s, e, ⟨rfl, rfl, rfl⟩, hp⟩
  · obtain ⟨u, hu, hc⟩ := exec_completes i s
    exact ⟨complete u, e.trans hu, ⟨hc.inReset, hc.inputs, congrArg _ hc.outputs⟩, rfl⟩
  · obtain ⟨i, hi, -⟩ := h.pend_accepted w hp
    cases hd.symm.trans hi

/-- With reset released, the next event is taken off the list, and answered exactly if it is a host access. -/
theorem step_answers {e : Event} (h : s.Inv) (hr : s.inReset = false) (hi : s.inputs = e :: rest)
    (he : e ≠ .resetAssert) : ∃ t, step s = .next t ∧
      Answers ([e].filter fun e => e ≠ .engine ∧ e ≠ .resetRelease).length { s with inputs := rest } t := by
  cases e with
  | engine =>
    obtain ⟨t, ht, ha, -⟩ := engineTurn_answers (inv_setInputs h rest)
    exact ⟨t, (step_of_engine hi).trans ht, ha⟩
  | read off size => exact ⟨_, step_of_read hr hi, hostRead_answers off size _⟩
  | write off size v => exact ⟨_, step_of_write hr hi, hostWrite_answers off size v _⟩
  | resetAssert => exact absurd rfl he
  | resetRelease =>
    have hsame := resetRelease_of_released { s with inputs := rest } hr
    exact ⟨_, (step_of_resetRelease hi).trans (congrArg _ hsame), rfl, rfl, rfl⟩

/-- Settles O56, by induction on the list of inputs: each event by `step_answers`, and the engine's turn after the last. -/
theorem everyAccessIsAnsweredAndCommandsComplete : Obligations.EveryAccessIsAnsweredAndCommandsComplete := by
  intro s h hr hno
  induction hi : s.inputs generalizing s with
  | nil =>
    obtain ⟨t, ht, ha, hp⟩ := engineTurn_answers h
    exact ⟨t, run_succ ((step_of_nil hi).trans ht) rfl, ha.inputs.trans hi, hp, ha.outputs⟩
  | cons e rest ih =>
    rw [hi, List.forall_mem_cons] at hno
    obtain ⟨t, ht, ha⟩ := step_answers h hr hi hno.1
    obtain ⟨u, hu, hin, hp, hout⟩ :=
      ih t (everyStepKeepsTheInvariant s t h ht) (ha.inReset.trans hr) (ha.inputs ▸ hno.2) ha.inputs
    refine ⟨u, run_succ ht hu, hin, hp, ?_⟩
    rw [hout, ha.outputs, Nat.add_assoc, ← List.length_append, ← List.filter_append, List.singleton_append]

end Sys2Proof.Machine
end
